-- ==== Sys2Proof/Word.lean ====
section
/-! DEFINITION. The word, byte and nibble types of the ST20-C1 (spec/00_scope.md R2, R3) and the word constants the
surviving text names. -/

namespace Sys2Proof

/-- A word: 32 bits, bit 0 the least significant (R3). -/
abbrev Word := BitVec 32

/-- A byte: 8 bits (R2). -/
abbrev Byte := BitVec 8

/-- The function code and the data field of an instruction component are four bits each (R50). -/
abbrev Nibble := BitVec 4

/-- `MostNeg`, the integer -2^31 (R3). -/
def mostNeg : Word := 0x80000000#32

/-- `MostPos`, the integer 2^31 - 1 (R3). -/
def mostPos : Word := 0x7FFFFFFF#32

/-- `NotProcess`, the null process pointer (R16, R39). -/
def notProcess : Word := mostNeg

/-- A boolean is a word: false is 0 and true is 1 (R3). -/
def boolWord (b : Bool) : Word := if b then 1#32 else 0#32

end Sys2Proof
end

