-- ==== Sys2Proof/Config.lean ====
section
/-! DEFINITION. What an implementation of the ST20-C1 fixes, and the free values: constants WITHOUT a body, so that
nothing proved of the model rests on a choice of them. -/

namespace Sys2Proof

/-- `ProductId`, the word `ldprodid` returns (R2, R118, D20; log 35). -/
opaque Config.productId : Word

/-- `IOReservedOut`: how many of the most significant bits of IOreg's output half are reserved for system use
(R2, R26, D19; log 31). -/
opaque Config.ioReservedOut : Nat

/-- `IOReservedIn`: how many of the most significant bits of IOreg's input half are reserved for system use
(R2, R26, D19; log 31). -/
opaque Config.ioReservedIn : Nat

/-- What the byte at an address holds before anything has been written to it: unspecified (R29, R170; log 7). -/
opaque Config.unwrittenByte : Nat → Byte

/-- The n-th free word: an `undefined` value is any 32-bit word (R7, D8; log 11). -/
opaque Config.freeWord : Nat → Word

/-- The n-th free bit: an `undefined` flag is any bit (R7, D8; log 11). -/
opaque Config.freeBit : Nat → Bool

end Sys2Proof
end

