-- ==== Sys2Proof/Machine/Operands.lean ====
section
/-! DEFINITION. The value functions of the instructions: word offsets, signed readings, byte order of a word, sign
extension, and the manual's `int16`, `low_word` and `high_word` (spec/00_scope.md R8, R9, spec/20_memory.md R37,
spec/43_secondary_named.md R115, R122). -/

namespace Sys2Proof.Machine

/-- `base @ x`: the address `x` words from `base`, modulo 2^32 (R37). -/
def wordOffset (base x : Word) : Word := base + 4#32 * x

/-- The byte selector of an address: its two least significant bits (R32). -/
def byteSelector (a : Word) : BitVec 2 := a.extractLsb' 0 2

/-- The word address of an address: its thirty most significant bits (R32). -/
def wordAddress (a : Word) : BitVec 30 := a.extractLsb' 2 30

/-- An object of `n` bytes is accessed only at a multiple of `n` (R35). -/
def aligned (a : Word) (n : Nat) : Bool := a.toNat % n == 0

/-- Byte `k` of a word, its bits 8k+7 down to 8k (R3). -/
def byteOf (v : Word) (k : Nat) : Byte := v.extractLsb' (8 * k) 8

/-- The bytes of a word in the reverse order (R115). -/
def swapBytes (v : Word) : Word := byteOf v 0 ++ byteOf v 1 ++ byteOf v 2 ++ byteOf v 3

/-- `sext_8`: bits 31..8 are bit 7 of the byte (R122). -/
def signExtendByte (v : Byte) : Word := v.signExtend 32

/-- `sext_16`: bits 31..16 are bit 15 of the half word (R122). -/
def signExtendSixteen (v : BitVec 16) : Word := v.signExtend 32

/-- `int16(x)`: `x` itself where it fits in 16 bits; where it does not, the result is undefined, and is the free value given
for it (R7, R9). -/
def int16 (x : Int) (free : BitVec 16) : BitVec 16 :=
  if -32768 ≤ x ∧ x ≤ 32767 then BitVec.ofInt 16 x else free

/-- `low_word`: the least significant word of a 64-bit value (R9). -/
def lowWord (v : BitVec 64) : Word := v.extractLsb' 0 32

/-- `high_word`: the most significant word of a 64-bit value (R9). -/
def highWord (v : BitVec 64) : Word := v.extractLsb' 32 32

/-- `low_word` of a 48-bit value (R9). -/
def lowWordOf48 (v : BitVec 48) : Word := v.extractLsb' 0 32

/-- `high_word` of a 48-bit value: the sixteen bits 47..32; how they are extended to a word is lost, so they are not (R9). -/
def highWordOf48 (v : BitVec 48) : BitVec 16 := v.extractLsb' 32 16

/-- The sum of two words "calculated to infinite precision" (R8, R110). -/
def exactSum (a b : Word) : Int := a.toInt + b.toInt

/-- The product of two words "calculated to infinite precision" (R8, R112). -/
def exactProduct (a b : Word) : Int := a.toInt * b.toInt

/-- An exact result reduced by multiples of 2^32 into the word range (R8, R110, R124). -/
def reduce (x : Int) : Word := BitVec.ofInt 32 x

/-- The output data of IOreg, bits 15..0 (R26). -/
def outputData (v : Word) : BitVec 16 := v.extractLsb' 0 16

/-- The input data of IOreg, bits 31..16 (R26). -/
def inputData (v : Word) : BitVec 16 := v.extractLsb' 16 16

/-- IOreg from its two halves (R26). -/
def ioWord (input output : BitVec 16) : Word := input ++ output

/-- The bits of IOreg that a variant reserves for system use: the most significant of each half, as many as the variant's
data sheet says (R26, D19; log 31). -/
def ioReservedBit (k : Nat) : Bool :=
  (decide (k < 16) && decide (16 ≤ k + Config.ioReservedOut)) ||
    (decide (16 ≤ k) && decide (k < 32) && decide (32 ≤ k + Config.ioReservedIn))

end Sys2Proof.Machine
end

