-- ==== Sys2Proof/Syntax.lean ====
section
/-! DEFINITION. The instructions: one constructor per row of spec/opcode_table.json (R67).

A primary instruction carries its operand `n`, the completed 32-bit instruction data value (R56). A prefixing component
carries its 4-bit data field (R70, R71). `opr` carries the operation code (R72). A secondary instruction carries nothing
(R57). -/

namespace Sys2Proof

inductive Instr where
  /-- prefix, R70 -/
  | pfix (d : Nibble)
  /-- negative prefix, R71 -/
  | nfix (d : Nibble)
  /-- operate, R72: the operation code of a secondary instruction -/
  | opr (n : Word)
  /-- add constant, R80 -/
  | adc (n : Word)
  /-- adjust work space, R81 -/
  | ajw (n : Word)
  /-- function call, R82 -/
  | fcall (n : Word)
  /-- conditional jump, R83 -/
  | cj (n : Word)
  /-- equals constant, R84 -/
  | eqc (n : Word)
  /-- jump, R85 -/
  | j (n : Word)
  /-- load constant, R86 -/
  | ldc (n : Word)
  /-- load local, R87 -/
  | ldl (n : Word)
  /-- load local pointer, R88 -/
  | ldlp (n : Word)
  /-- load non-local, R89 -/
  | ldnl (n : Word)
  /-- load non-local pointer, R90 -/
  | ldnlp (n : Word)
  /-- store local, R91 -/
  | stl (n : Word)
  /-- store non-local, R92 -/
  | stnl (n : Word)
  /-- add, R110 -/
  | add
  /-- and, R111 (the manual's `and`) -/
  | and
  /-- rotate stack, R100 -/
  | rot
  /-- anti-rotate stack, R101 -/
  | arot
  /-- duplicate stack, R102 -/
  | dup
  /-- reverse stack, R103 -/
  | rev
  /-- multiply, R112 -/
  | mul
  /-- add with carry, R113 -/
  | addc
  /-- subtract with carry, R114 -/
  | subc
  /-- byte swap 32, R115 -/
  | swap32
  /-- general adjust work space, R116 -/
  | gajw
  /-- input/output, R117 -/
  | io
  /-- load product identity, R118 -/
  | ldprodid
  /-- exception return, R119 -/
  | eret
  /-- multiply accumulate, R120 -/
  | mac
  /-- unsigned multiply accumulate, R121 -/
  | umac
  deriving DecidableEq, Repr

end Sys2Proof
end

