-- ==== Sys2Proof/Decode.lean ====
section
/-! DEFINITION. The encoding of instructions (spec/30_encoding.md, spec/40_prefix_operate.md): the function codes and
operation codes, the decoding of one component, of a whole component sequence, and the encoder. -/

namespace Sys2Proof

/-- The sixteen functions: two prefixes, `opr`, and the thirteen primary instructions (R51). -/
inductive Func where
  | j | ldlp | pfix | ldnl | ldc | ldnlp | nfix | ldl | adc | fcall | cj | ajw | eqc | stl | stnl | opr
  deriving DecidableEq, Repr

/-- Why a byte sequence is no instruction: it ends inside one, or it has more than seven prefixes (R54, D5; log 5). -/
inductive DecodeError where
  | truncated
  | prefixChainTooLong
  deriving DecidableEq, Repr

/-- The table `FnCode`, a parameter: the function codes of the fourteen functions that the manual's surviving text gives none
(R2, R59, D2; log 2). -/
structure FnTable where
  j : Nibble
  ldlp : Nibble
  pfix : Nibble
  ldnl : Nibble
  ldc : Nibble
  ldnlp : Nibble
  nfix : Nibble
  ldl : Nibble
  fcall : Nibble
  cj : Nibble
  ajw : Nibble
  eqc : Nibble
  stl : Nibble
  stnl : Nibble
  deriving DecidableEq, Repr

/-- The default of the table, which spec/opcode_table.json uses (R59). PRESUMED (log 2). -/
def defaultFnTable : FnTable :=
  { j := 0x0#4
    ldlp := 0x1#4
    pfix := 0x2#4
    ldnl := 0x3#4
    ldc := 0x4#4
    ldnlp := 0x5#4
    nfix := 0x6#4
    ldl := 0x7#4
    fcall := 0x9#4
    cj := 0xA#4
    ajw := 0xB#4
    eqc := 0xC#4
    stl := 0xD#4
    stnl := 0xE#4 }

/-- The function code of each function under a table: `adc` = 8 is the manual's, `opr` = F is derived from it, and neither is
open to the table (R59, D2). -/
def fnCode (t : FnTable) : Func → Nibble
  | .j => t.j
  | .ldlp => t.ldlp
  | .pfix => t.pfix
  | .ldnl => t.ldnl
  | .ldc => t.ldc
  | .ldnlp => t.ldnlp
  | .nfix => t.nfix
  | .ldl => t.ldl
  | .adc => 0x8#4
  | .fcall => t.fcall
  | .cj => t.cj
  | .ajw => t.ajw
  | .eqc => t.eqc
  | .stl => t.stl
  | .stnl => t.stnl
  | .opr => 0xF#4

/-- The sixteen functions (R51). -/
def allFunctions : List Func :=
  [.j, .ldlp, .pfix, .ldnl, .ldc, .ldnlp, .nfix, .ldl, .adc, .fcall, .cj, .ajw, .eqc, .stl, .stnl, .opr]

/-- A table gives sixteen different codes: it is a bijection (R51, D2). -/
abbrev FnTable.wf (t : FnTable) : Prop := (allFunctions.map (fnCode t)).Nodup

/-- The function a function code stands for; all sixteen values are used (R51, R59). In a table that is no bijection, and so
no `FnCode`, a code may be no function's, and it is read as `opr`. DESIGN CHOICE (log 2). -/
def functionOfCode (t : FnTable) (c : Nibble) : Func := (allFunctions.find? (fun f => fnCode t f == c)).getD .opr

/-- `OpCode`: the secondary instruction an operation code selects; two rows survive (R60, D3; logs 3 and 4). -/
def opCode (n : Word) : Option Instr :=
  if n = 4#32 then some .add
  else if n = 9#32 then some .and
  else none

/-- The operation code of a secondary instruction, where one survives (R60, D3). -/
def operationCode : Instr → Option Word
  | .add => some 4#32
  | .and => some 9#32
  | .rot => none
  | .arot => none
  | .dup => none
  | .rev => none
  | .mul => none
  | .addc => none
  | .subc => none
  | .swap32 => none
  | .gajw => none
  | .io => none
  | .ldprodid => none
  | .eret => none
  | .mac => none
  | .umac => none
  | .pfix _ => none
  | .nfix _ => none
  | .opr _ => none
  | .adc _ => none
  | .ajw _ => none
  | .fcall _ => none
  | .cj _ => none
  | .eqc _ => none
  | .j _ => none
  | .ldc _ => none
  | .ldl _ => none
  | .ldlp _ => none
  | .ldnl _ => none
  | .ldnlp _ => none
  | .stl _ => none
  | .stnl _ => none

/-! ## The instruction data value -/

/-- The four most significant bits of a component form its function code (R50). -/
def componentFunction (t : FnTable) (b : Byte) : Func := functionOfCode t (b.extractLsb' 4 4)

/-- The four least significant bits of a component are its data field (R50). -/
def componentData (b : Byte) : Nibble := b.extractLsb' 0 4

/-- Every component first loads its data bits into the least significant four bits of the instruction data value, which
are zero at that moment (R52). -/
def loadData (idv : Word) (d : Nibble) : Word := idv ||| d.setWidth 32

/-- The instruction data value after `pfix d`: load, then shift up four places (R70). -/
def pfixValue (idv : Word) (d : Nibble) : Word := loadData idv d <<< 4

/-- The instruction data value after `nfix d`: load, complement all 32 bits, then shift up four places (R71). -/
def nfixValue (idv : Word) (d : Nibble) : Word := (~~~ loadData idv d) <<< 4

/-! ## Decoding -/

/-- `opr` with the operation code `n`: the secondary instruction `n` selects, and the bare `opr n` where none of
the two known rows has that code; a row that a launch adds acts when it executes (R60, R61, R72; log 3). -/
def decodeOperate (n : Word) : Instr := (opCode n).getD (.opr n)

/-- The instruction one component stands for when the instruction data value before it is `idv` (R53, R64). Total: every
byte is a component. -/
def decodeComponent (t : FnTable) (idv : Word) (b : Byte) : Instr :=
  let d := componentData b
  let n := loadData idv d
  match componentFunction t b with
  | .pfix => .pfix d
  | .nfix => .nfix d
  | .opr => decodeOperate n
  | .j => .j n
  | .ldlp => .ldlp n
  | .ldnl => .ldnl n
  | .ldc => .ldc n
  | .ldnlp => .ldnlp n
  | .ldl => .ldl n
  | .adc => .adc n
  | .fcall => .fcall n
  | .cj => .cj n
  | .ajw => .ajw n
  | .eqc => .eqc n
  | .stl => .stl n
  | .stnl => .stnl n

/-- What a component does to the instruction being built: a prefix gives the next instruction data value, any other
function completes the instruction (R53). -/
def prefixValue? (t : FnTable) (idv : Word) (b : Byte) : Option Word :=
  match componentFunction t b with
  | .pfix => some (pfixValue idv (componentData b))
  | .nfix => some (nfixValue idv (componentData b))
  | .opr => none
  | .j => none
  | .ldlp => none
  | .ldnl => none
  | .ldc => none
  | .ldnlp => none
  | .ldl => none
  | .adc => none
  | .fcall => none
  | .cj => none
  | .ajw => none
  | .eqc => none
  | .stl => none
  | .stnl => none

/-- Decoding with the instruction data value `idv` after `k` prefixes (R64): the instruction and the bytes after it.
An eighth prefix is rejected (R54, D5; log 5). -/
def decodeFrom (t : FnTable) (idv : Word) (k : Nat) : List Byte → Except DecodeError (Instr × List Byte)
  | [] => .error .truncated
  | b :: bs =>
    match prefixValue? t idv b with
    | some v => if 7 ≤ k then .error .prefixChainTooLong else decodeFrom t v (k + 1) bs
    | none => .ok (decodeComponent t idv b, bs)

/-- The decode of a whole instruction: zero or more prefixes and the component that completes them, the instruction data
value zero before the first (R52, R53, R64). -/
def decode (t : FnTable) (bs : List Byte) : Except DecodeError (Instr × List Byte) := decodeFrom t 0#32 0 bs

/-- The instruction the decoder reads from the first component of a table word; the bits are numbered as
spec/opcode_table.json numbers them, the first component is bits 7..0, and the function codes are the default ones, which that
file uses. -/
def decodeTableWord (nbits w : Nat) : Option Instr :=
  if nbits = 0 then none else some (decodeComponent defaultFnTable 0#32 (BitVec.ofNat 8 (w % 2 ^ nbits)))

/-! ## Encoding -/

/-- One component: the function code above the data field (R50). -/
def component (t : FnTable) (f : Func) (d : Nibble) : Byte := fnCode t f ++ d

/-- The shortest encoding of function `f` with operand `v` in at most `k` prefixes (R63): a value outside 0 to 15 puts its
upper bits into prefixes, complemented under an `nfix` where it is negative. -/
def encodeWithin (t : FnTable) : Nat → Func → Word → List Byte
  | 0, f, v => [component t f (v.extractLsb' 0 4)]
  | k + 1, f, v =>
    if v.toNat < 16 then [component t f (v.extractLsb' 0 4)]
    else if v.msb then encodeWithin t k .nfix ((~~~ v) >>> 4) ++ [component t f (v.extractLsb' 0 4)]
    else encodeWithin t k .pfix (v >>> 4) ++ [component t f (v.extractLsb' 0 4)]

/-- The shortest encoding of function `f` with operand `v` (R63); seven prefixes reach every 32-bit value (R54, R55). -/
def encodeOperand (t : FnTable) (f : Func) (v : Word) : List Byte := encodeWithin t 7 f v

/-- A secondary instruction is `opr` with its operation code (R57); one whose code is lost has no bytes (R60). -/
def encodeOperation (t : FnTable) (i : Instr) : List Byte :=
  match operationCode i with
  | some c => encodeOperand t .opr c
  | none => []

/-- The bytes of an instruction, the first at the lowest address (R58, R63). A prefixing component is one byte. -/
def encode (t : FnTable) : Instr → List Byte
  | .pfix d => [component t .pfix d]
  | .nfix d => [component t .nfix d]
  | .opr n => encodeOperand t .opr n
  | .adc n => encodeOperand t .adc n
  | .ajw n => encodeOperand t .ajw n
  | .fcall n => encodeOperand t .fcall n
  | .cj n => encodeOperand t .cj n
  | .eqc n => encodeOperand t .eqc n
  | .j n => encodeOperand t .j n
  | .ldc n => encodeOperand t .ldc n
  | .ldl n => encodeOperand t .ldl n
  | .ldlp n => encodeOperand t .ldlp n
  | .ldnl n => encodeOperand t .ldnl n
  | .ldnlp n => encodeOperand t .ldnlp n
  | .stl n => encodeOperand t .stl n
  | .stnl n => encodeOperand t .stnl n
  | .add => encodeOperation t .add
  | .and => encodeOperation t .and
  | .rot => encodeOperation t .rot
  | .arot => encodeOperation t .arot
  | .dup => encodeOperation t .dup
  | .rev => encodeOperation t .rev
  | .mul => encodeOperation t .mul
  | .addc => encodeOperation t .addc
  | .subc => encodeOperation t .subc
  | .swap32 => encodeOperation t .swap32
  | .gajw => encodeOperation t .gajw
  | .io => encodeOperation t .io
  | .ldprodid => encodeOperation t .ldprodid
  | .eret => encodeOperation t .eret
  | .mac => encodeOperation t .mac
  | .umac => encodeOperation t .umac

/-- A secondary instruction: one that `opr` selects (R57). -/
def Instr.isSecondary : Instr → Bool
  | .add => true
  | .and => true
  | .rot => true
  | .arot => true
  | .dup => true
  | .rev => true
  | .mul => true
  | .addc => true
  | .subc => true
  | .swap32 => true
  | .gajw => true
  | .io => true
  | .ldprodid => true
  | .eret => true
  | .mac => true
  | .umac => true
  | .pfix _ => false
  | .nfix _ => false
  | .opr _ => false
  | .adc _ => false
  | .ajw _ => false
  | .fcall _ => false
  | .cj _ => false
  | .eqc _ => false
  | .j _ => false
  | .ldc _ => false
  | .ldl _ => false
  | .ldlp _ => false
  | .ldnl _ => false
  | .ldnlp _ => false
  | .stl _ => false
  | .stnl _ => false

/-- The secondary instructions of grade L: those whose definition is lost, which `opr` refuses (R61, R72, D9; log 3). -/
def Instr.lostOperation : Instr → Bool
  | .mul => true
  | .addc => true
  | .subc => true
  | .gajw => true
  | .io => true
  | .eret => true
  | .mac => true
  | .umac => true
  | .add => false
  | .and => false
  | .rot => false
  | .arot => false
  | .dup => false
  | .rev => false
  | .swap32 => false
  | .ldprodid => false
  | .pfix _ => false
  | .nfix _ => false
  | .opr _ => false
  | .adc _ => false
  | .ajw _ => false
  | .fcall _ => false
  | .cj _ => false
  | .eqc _ => false
  | .j _ => false
  | .ldc _ => false
  | .ldl _ => false
  | .ldlp _ => false
  | .ldnl _ => false
  | .ldnlp _ => false
  | .stl _ => false
  | .stnl _ => false

/-- The name of an instruction, as spec/opcode_table.json has it. -/
def Instr.mnemonic : Instr → String
  | .pfix _ => "pfix"
  | .nfix _ => "nfix"
  | .opr _ => "opr"
  | .adc _ => "adc"
  | .ajw _ => "ajw"
  | .fcall _ => "fcall"
  | .cj _ => "cj"
  | .eqc _ => "eqc"
  | .j _ => "j"
  | .ldc _ => "ldc"
  | .ldl _ => "ldl"
  | .ldlp _ => "ldlp"
  | .ldnl _ => "ldnl"
  | .ldnlp _ => "ldnlp"
  | .stl _ => "stl"
  | .stnl _ => "stnl"
  | .add => "add"
  | .and => "and"
  | .rot => "rot"
  | .arot => "arot"
  | .dup => "dup"
  | .rev => "rev"
  | .mul => "mul"
  | .addc => "addc"
  | .subc => "subc"
  | .swap32 => "swap32"
  | .gajw => "gajw"
  | .io => "io"
  | .ldprodid => "ldprodid"
  | .eret => "eret"
  | .mac => "mac"
  | .umac => "umac"

/-- The instruction data value an instruction was built from, where it has one: a prefixing component's data field, a
primary's operand, a secondary's operation code (R52, R56, R57). -/
def Instr.dataValue : Instr → Option Word
  | .pfix d => some (d.setWidth 32)
  | .nfix d => some (d.setWidth 32)
  | .opr n => some n
  | .adc n => some n
  | .ajw n => some n
  | .fcall n => some n
  | .cj n => some n
  | .eqc n => some n
  | .j n => some n
  | .ldc n => some n
  | .ldl n => some n
  | .ldlp n => some n
  | .ldnl n => some n
  | .ldnlp n => some n
  | .stl n => some n
  | .stnl n => some n
  | .add => operationCode .add
  | .and => operationCode .and
  | .rot => operationCode .rot
  | .arot => operationCode .arot
  | .dup => operationCode .dup
  | .rev => operationCode .rev
  | .mul => operationCode .mul
  | .addc => operationCode .addc
  | .subc => operationCode .subc
  | .swap32 => operationCode .swap32
  | .gajw => operationCode .gajw
  | .io => operationCode .io
  | .ldprodid => operationCode .ldprodid
  | .eret => operationCode .eret
  | .mac => operationCode .mac
  | .umac => operationCode .umac

/-- A prefixing component: it does not complete an instruction (R53). -/
def Instr.isPrefixing : Instr → Bool
  | .pfix _ => true
  | .nfix _ => true
  | .opr _ => false
  | .adc _ => false
  | .ajw _ => false
  | .fcall _ => false
  | .cj _ => false
  | .eqc _ => false
  | .j _ => false
  | .ldc _ => false
  | .ldl _ => false
  | .ldlp _ => false
  | .ldnl _ => false
  | .ldnlp _ => false
  | .stl _ => false
  | .stnl _ => false
  | .add => false
  | .and => false
  | .rot => false
  | .arot => false
  | .dup => false
  | .rev => false
  | .mul => false
  | .addc => false
  | .subc => false
  | .swap32 => false
  | .gajw => false
  | .io => false
  | .ldprodid => false
  | .eret => false
  | .mac => false
  | .umac => false

end Sys2Proof
end

