-- ==== Sys2Proof/Machine/State.lean ====
section
/-! DEFINITION. The state of the machine as plain data: the eight registers (spec/10_state.md R10), memory
(spec/20_memory.md R30), the hidden state of instruction fetch (R27, R54), the saved process states of interrupted code
(R142), the environment's exceptions, the launch parameters (R170), the reasons a step stops, and the state after reset. -/

namespace Sys2Proof.Machine

/-- Memory: the bytes written so far, as (address, byte) pairs at strictly rising addresses. An address not listed has no
value of its own here; reading it gives a free value (log 7). -/
abbrev Memory := List Host.Cell

/-- A range of `size` bytes upward from `base`, modulo 2^32. -/
structure Region where
  base : Word
  size : Nat
  deriving DecidableEq, Repr

/-- The parameters a launch fixes (R170, D2, D3, D12, D21, D26; logs 2, 3, 8 and 9). No step writes them. -/
structure Launch where
  /-- `MemMap`: the addresses that hold memory (R39) -/
  memMap : List Region
  /-- `ReservedAddresses`: the addresses no program load or store may use (R39) -/
  reserved : List Region
  /-- the program text, which no store may change (R44) -/
  text : List Region
  /-- `EndAddr`: where a run ends, if anywhere (R173) -/
  endAddr : Option Word
  /-- the rows of the table `OpCode` beside the two the spec gives: operation codes of secondary instructions, empty by
  default (R60, D3; log 3) -/
  operations : List (Word × Instr)
  /-- whether a row of that table for an instruction whose definition is lost is executed, with the effect its own rule states,
  and not refused as R61 and D9 have it (log 3) -/
  runLost : Bool
  /-- the table `FnCode` (R59, D2; log 2) -/
  functions : FnTable
  deriving DecidableEq, Repr

/-- The seven process state registers, which are preserved through exceptions (R10, R28, R142). -/
structure Context where
  areg : Word
  breg : Word
  creg : Word
  iptr : Word
  status : Word
  wptr : Word
  tdesc : Word
  deriving DecidableEq, Repr

/-- An exception is an interrupt or a trap; the only trap the surviving text names is the timeslice trap (R140, R146). -/
inductive ExceptionKind where
  | interrupt
  | timesliceTrap
  deriving DecidableEq, Repr

/-- The one-bit fields of Status (R17). -/
inductive StatusBit where
  | macMode
  | globalInterruptEnable
  | localInterruptEnable
  | overflow
  | underflow
  | carry
  | userMode
  | interruptMode
  | trapMode
  | sleep
  | reserved
  | startNextTask
  | timesliceEnable
  deriving DecidableEq, Repr

structure State where
  /-- evaluation stack register A, the top (R11) -/
  areg : Word
  /-- evaluation stack register B (R11) -/
  breg : Word
  /-- evaluation stack register C (R11) -/
  creg : Word
  /-- instruction pointer (R14) -/
  iptr : Word
  /-- Status register (R17) -/
  status : Word
  /-- work space pointer (R15) -/
  wptr : Word
  /-- task descriptor (R16) -/
  tdesc : Word
  /-- input and output register (R26) -/
  ioreg : Word
  /-- the instruction data value, hidden state of instruction fetch (R27, R52) -/
  idv : Word
  /-- how many prefixing components of the present instruction have been taken (R54, R64) -/
  prefixes : Nat
  /-- memory (R30) -/
  mem : Memory
  /-- the process states saved by the exceptions that have not returned, the latest first (R142; log 24) -/
  saved : List Context
  /-- the exceptions the environment presents, in the order it presents them (R27, R143, R147; log 25) -/
  pending : List ExceptionKind
  /-- how many times the interrupt controller was told that an interrupt handler ended (R119, R143; log 23) -/
  controllerSignals : Nat
  /-- the launch parameters (R170) -/
  launch : Launch
  /-- the MODEL's own field: how many free values have been used (R7, D8; log 11) -/
  draws : Nat
  deriving DecidableEq, Repr

/-- Why the machine stops. None of these is an exception of the chip (R145): each is the model's, and each is safe, since
the model stops where the chip does something the spec does not state (D7, D21; log 10). -/
inductive Fault where
  /-- raised by every word access at an address that is no multiple of 4 (and by a half-word access at an odd address):
  R35 forbids it and nothing says what happens (R36, D7). Safe. -/
  | misalignedAccess
  /-- raised by a fetch, load or store that touches an address outside `MemMap` (R39, D21). Safe. -/
  | outsideMemMap
  /-- raised by a load or store that touches `ReservedAddresses` (R39, D21). Safe. -/
  | reservedAddress
  deriving DecidableEq, Repr

/-- Why the model gives no next state. -/
inductive Refusal where
  /-- raised by an arm of exec whose instruction has no meaning yet. Safe. -/
  | notModelled (mnemonic : String)
  /-- raised by `fcall`, `mac` and `umac`, whose definition is lost and of which the spec states no effect
  (R82, R120, R121, D9; log 34), and by `opr` where the launch's row names an instruction of grade L and the launch does not run
  those (R61, R72; log 3). Safe. -/
  | lostDefinition (mnemonic : String)
  /-- raised by `opr` with an operation code that no known instruction has (R61, D4; log 3). Safe. -/
  | unknownOperation (code : Word)
  /-- raised by the eighth prefix of one instruction (R54, D5; log 5). Safe. -/
  | prefixChainTooLong
  /-- raised by a store that touches the program text (R44, D12; log 29). Safe. -/
  | storeToCode
  /-- raised by `j`, and by the step in place of any instruction, while Status.timeslice_enable is set: the counter and the
  place of the timeslice trap are lost (R85, R152, D17; log 27). Safe. -/
  | timeslicing
  /-- raised by the step, not by an instruction, when Iptr reaches `EndAddr` between instructions (R173, D26; log 28).
  It marks where a claim stops looking. Safe. -/
  | endOfRun
  /-- raised by the step, not by an instruction, between instructions while Status.start_next_task is set: the processor
  attempts to run the next process, and the process switch is lost (R24, R150, D17; log 26). Safe. -/
  | processSwitch
  /-- raised by the step, not by an instruction, between instructions while Status.sleep is set: the processor is due to go
  to sleep, and the sleep state is lost (R23, R151, D17; log 26). Safe. -/
  | sleepState
  deriving DecidableEq, Repr

/-- The outcome of an instruction or a step. -/
abbrev Result := Host.Outcome State Fault Refusal

/-- The launch parameters right after reset, where the spec gives none: all of the address space is memory, the reserved
addresses are the 256 bytes at the bottom that the spec's own tests keep clear of (D21), there is no program text and no
end address. DESIGN CHOICE (logs 8 and 9). The tables of operation codes and of
function codes have the defaults the spec gives them (R59, R60; logs 2 and 3). -/
def Launch.reset : Launch :=
  { memMap := [{ base := 0x80000000#32, size := 4294967296 }]
    reserved := [{ base := 0x80000000#32, size := 256 }]
    text := []
    endAddr := none
    operations := []
    runLost := false
    functions := defaultFnTable }

/-- The machine right after reset. The spec gives the instruction data value, 0 (R29); it gives no other register a reset
value, and each holds 0 here. DESIGN CHOICE (log 6). Memory lists nothing (log 7). -/
def State.reset : State :=
  { areg := 0#32
    breg := 0#32
    creg := 0#32
    iptr := 0#32
    status := 0#32
    wptr := 0#32
    tdesc := 0#32
    ioreg := 0#32
    idv := 0#32
    prefixes := 0
    mem := []
    saved := []
    pending := []
    controllerSignals := 0
    launch := Launch.reset
    draws := 0 }

end Sys2Proof.Machine
end

