-- ==== Sys2Proof/Machine/Flags.lean ====
section
/-! DEFINITION. The fields of the Status register (spec/10_state.md R17) and every flag computation the spec gives:
overflow and underflow (R20, R110, R124), carry (R21, R113), the mode bits (R22, R144), the interrupt enables (R19). -/

namespace Sys2Proof.Machine

/-- The place of each one-bit field of Status (R17). -/
def StatusBit.position : StatusBit → Nat
  | .macMode => 13
  | .globalInterruptEnable => 14
  | .localInterruptEnable => 15
  | .overflow => 16
  | .underflow => 17
  | .carry => 18
  | .userMode => 19
  | .interruptMode => 20
  | .trapMode => 21
  | .sleep => 22
  | .reserved => 23
  | .startNextTask => 24
  | .timesliceEnable => 25

/-- Read a one-bit field of a Status word (R17). -/
def statusBit (st : Word) (f : StatusBit) : Bool := st.getLsbD f.position

/-- Write a one-bit field of a Status word; the other fields keep their values (R17). -/
def setStatusBit (st : Word) (f : StatusBit) (v : Bool) : Word :=
  (st &&& ~~~(1#32 <<< f.position)) ||| ((BitVec.ofBool v).setWidth 32 <<< f.position)

/-- Status.mac_count, bits 7..0 (R17). -/
def macCount (st : Word) : BitVec 8 := st.extractLsb' 0 8

/-- Status.mac_buffer, bits 10..8 (R17). -/
def macBuffer (st : Word) : BitVec 3 := st.extractLsb' 8 3

/-- Status.mac_scale, bits 12..11 (R17). -/
def macScale (st : Word) : BitVec 2 := st.extractLsb' 11 2

/-- Status.timeslice_count, bits 31..26 (R17). -/
def timesliceCount (st : Word) : BitVec 6 := st.extractLsb' 26 6

/-- The global fields of Status, carried from one process to another across a context switch (R17). -/
def StatusBit.isGlobal : StatusBit → Bool
  | .globalInterruptEnable => true
  | .timesliceEnable => true
  | .macMode => false
  | .localInterruptEnable => false
  | .overflow => false
  | .underflow => false
  | .carry => false
  | .userMode => false
  | .interruptMode => false
  | .trapMode => false
  | .sleep => false
  | .reserved => false
  | .startNextTask => false

/-- A flag write the sources dispute: a free choice between clearing the bit and leaving it (C2, D24; log 13). -/
def clearedOrKept (free : Bool) (old : Bool) : Bool := free && old

/-- Status after a checked operation with the exact result `x`: overflow is set on a result above MostPos, underflow on one
below MostNeg (R20, R110, R124). A bit that is not set is disputed, and takes the free choice given for it (D24). -/
def checkedStatus (st : Word) (x : Int) (freeOverflow freeUnderflow : Bool) : Word :=
  let overflow :=
    if mostPos.toInt < x then true else clearedOrKept freeOverflow (statusBit st .overflow)
  let underflow :=
    if x < mostNeg.toInt then true else clearedOrKept freeUnderflow (statusBit st .underflow)
  setStatusBit (setStatusBit st .overflow overflow) .underflow underflow

/-- Status with both arithmetic flags undefined (R80; log 12). -/
def undefinedFlags (st : Word) (freeOverflow freeUnderflow : Bool) : Word :=
  setStatusBit (setStatusBit st .overflow freeOverflow) .underflow freeUnderflow

/-- The carry in of a long addition or subtraction, as a word (R113). -/
def carryIn (st : Word) : Word := boolWord (statusBit st .carry)

/-- The carry out of a 32-bit addition with a carry in (R21, R113). DEDUCED (log 19). -/
def carryOut (a b c : Word) : Bool := decide (4294967296 ≤ a.toNat + b.toNat + c.toNat)

/-- An external interrupt can be taken only while both enables are set (R19, R143). DEDUCED (log 25). -/
def interruptsEnabled (st : Word) : Bool :=
  statusBit st .globalInterruptEnable && statusBit st .localInterruptEnable

/-- Whether an exception can be taken: an interrupt while interrupts are enabled (R143), the timeslice trap while timeslicing
is (R152). That the interrupt enables do not mask the trap, and that neither kind is held off inside a handler, is the
model's: DESIGN CHOICE (log 25). -/
def canTake (st : Word) : ExceptionKind → Bool
  | .interrupt => interruptsEnabled st
  | .timesliceTrap => statusBit st .timesliceEnable

/-- The mode bits inside the handler: an interrupt handler runs in interrupt mode alone; a trap handler runs in trap mode,
and in interrupt mode too when it was entered from an interrupt handler (R22, R144). Where the exception comes inside a trap
handler, which the spec leaves open, the bits follow the same two cases: DESIGN CHOICE (log 25). -/
def handlerModes (kind : ExceptionKind) (old new : Word) : Word :=
  match kind with
  | .interrupt =>
    setStatusBit (setStatusBit (setStatusBit new .userMode false) .interruptMode true) .trapMode false
  | .timesliceTrap =>
    setStatusBit (setStatusBit (setStatusBit new .userMode false) .interruptMode (statusBit old .interruptMode))
      .trapMode true

/-- Whether `eret` signals the interrupt controller, by the three mode bits user_mode, interrupt_mode and trap_mode (R119): of
the four rows of R144 only an interrupt handler's does; of the other values of the three bits the spec says nothing, and the
choice is the free one given for it (log 23). -/
def signalRequired (st : Word) (free : Bool) : Bool :=
  match statusBit st .userMode, statusBit st .interruptMode, statusBit st .trapMode with
  | true, false, false => false
  | false, true, false => true
  | false, false, true => false
  | false, true, true => false
  | false, false, false => free
  | true, true, false => free
  | true, false, true => free
  | true, true, true => free

end Sys2Proof.Machine
end

