-- ==== Sys2Proof/Machine/Ops.lean ====
section
/-! DEFINITION. The named operations over memory and registers, each in one place: memory and its views
(spec/20_memory.md R33, R34), access checks (R35, R36, R39, R44), the evaluation stack (spec/10_state.md R12, R13), free
values (spec/00_scope.md R7), taking an exception and returning from one (spec/60_exceptions.md R142, R144, R148). -/

namespace Sys2Proof.Machine

/-! ## Memory -/

/-- The byte listed at an address, if one is. -/
def Memory.get? : Memory → Nat → Option Byte
  | [], _ => none
  | (k, b) :: m, a => if k = a then some b else Memory.get? m a

/-- List a byte at an address, keeping the addresses strictly rising. -/
def Memory.set : Memory → Nat → Byte → Memory
  | [], a, v => [(a, v)]
  | (k, b) :: m, a, v =>
    if a < k then (a, v) :: (k, b) :: m
    else if a = k then (a, v) :: m
    else (k, b) :: Memory.set m a v

/-- The canonical form: addresses strictly rising, and inside the 2^32-byte address space (R30). An unlisted address has
no value of its own, so no entry can equal it (log 7). -/
abbrev Memory.wf (m : Memory) : Prop :=
  m.Pairwise (fun c d => c.1 < d.1) ∧ ∀ c ∈ m, c.1 < 4294967296

/-- `byte[a]`: the byte at an address; one that nothing has written is a free value (R29, R34; log 7). -/
def Memory.byte (m : Memory) (a : Word) : Byte :=
  (Memory.get? m a.toNat).getD (Config.unwrittenByte a.toNat)

/-- `byte'[a] <- v` (R34). -/
def Memory.setByte (m : Memory) (a : Word) (v : Byte) : Memory := Memory.set m a.toNat v

/-- `MemRead(a, n)`: the little-endian value of the `n` bytes upward from `a`, modulo 2^32 (R33, R34). -/
def Memory.read (m : Memory) (a : Word) : Nat → Word
  | 0 => 0#32
  | n + 1 => (Memory.byte m a).setWidth 32 ||| (Memory.read m (a + 1#32) n <<< 8)

/-- `MemWrite(a, n, v)`: store the low `n` bytes of `v` upward from `a`, little-endian, modulo 2^32 (R33, R34). -/
def Memory.write (m : Memory) (a : Word) (n : Nat) (v : Word) : Memory :=
  match n with
  | 0 => m
  | n + 1 => Memory.write (Memory.setByte m a (byteOf v 0)) (a + 1#32) n (v >>> 8)

/-! ## Regions and access checks -/

/-- An address in a region, modulo 2^32. -/
def Region.contains (r : Region) (a : Word) : Bool := decide ((a - r.base).toNat < r.size)

/-- An address in some region of a list. -/
def inRegions (rs : List Region) (a : Word) : Bool := rs.any (fun r => r.contains a)

/-- Every one of the `n` bytes upward from `a` is in some region of a list. -/
def allInRegions (rs : List Region) (a : Word) (n : Nat) : Bool :=
  (List.range n).all (fun k => inRegions rs (a + BitVec.ofNat 32 k))

/-- Some byte of the `n` bytes upward from `a` is in some region of a list. -/
def someInRegions (rs : List Region) (a : Word) (n : Nat) : Bool :=
  (List.range n).any (fun k => inRegions rs (a + BitVec.ofNat 32 k))

/-- Why a data access of `n` bytes at `a` is a fault of the model, if it is: misaligned (R36, D7), outside `MemMap`, or in
`ReservedAddresses` (R39, D21). The order of the checks is the model's (log 10). -/
def accessFault (s : State) (a : Word) (n : Nat) : Option Fault :=
  if !aligned a n then some .misalignedAccess
  else if !allInRegions s.launch.memMap a n then some .outsideMemMap
  else if someInRegions s.launch.reserved a n then some .reservedAddress
  else none

/-- A load of `n` bytes (R34, R35). -/
def load (s : State) (a : Word) (n : Nat) : Except Fault Word :=
  match accessFault s a n with
  | some f => .error f
  | none => .ok (Memory.read s.mem a n)

/-- A load of a word and what is done with it. -/
def withWord (s : State) (a : Word) (k : Word → State) : Result :=
  match load s a 4 with
  | .error f => .fault f
  | .ok v => .next (k v)

/-- A store of the low `n` bytes of `v`, which does not touch the program text (R34, R35, R44). Where it is a fault and touches
the text besides, it is the fault: DESIGN CHOICE (logs 10 and 29). -/
def store (s : State) (a : Word) (n : Nat) (v : Word) : Result :=
  match accessFault s a n with
  | some f => .fault f
  | none =>
    if someInRegions s.launch.text a n then .refused .storeToCode
    else .next { s with mem := Memory.write s.mem a n v }

/-- Go on from the state an operation leaves, if it leaves one. -/
def andThen (o : Result) (k : State → State) : Result :=
  match o with
  | .next s => .next (k s)
  | .fault f => .fault f
  | .refused r => .refused r

/-! ## Free values -/

/-- The `k`-th free word of an instruction: an `undefined` value (R7, D8; log 11). -/
def State.freeWord (s : State) (k : Nat) : Word := Config.freeWord (s.draws + k)

/-- The `k`-th free bit of an instruction: an `undefined` flag (R7, D8; log 11). -/
def State.freeBit (s : State) (k : Nat) : Bool := Config.freeBit (s.draws + k)

/-- `n` free values have been used. -/
def State.spend (s : State) (n : Nat) : State := { s with draws := s.draws + n }

/-! ## Registers -/

/-- Push a value onto the evaluation stack; the old Creg is lost (R12). -/
def State.push (s : State) (v : Word) : State := { s with areg := v, breg := s.areg, creg := s.breg }

/-- Write the three registers of the evaluation stack (R11). -/
def State.setStack (s : State) (a b c : Word) : State := { s with areg := a, breg := b, creg := c }

/-- Pop the evaluation stack and leave `c` in Creg (R13). -/
def State.popLeaving (s : State) (c : Word) : State := { s with areg := s.breg, breg := s.creg, creg := c }

/-- Write the top of the evaluation stack (R11). -/
def State.setA (s : State) (v : Word) : State := { s with areg := v }

/-- Write Iptr (R14). -/
def State.setIptr (s : State) (v : Word) : State := { s with iptr := v }

/-- Write Wptr (R15). -/
def State.setWptr (s : State) (v : Word) : State := { s with wptr := v }

/-- Write Status (R17). -/
def State.setStatus (s : State) (v : Word) : State := { s with status := v }

/-- Jump by a signed byte offset from the next instruction, modulo 2^32 (R83, R85). -/
def State.jumpBy (s : State) (n : Word) : State := s.setIptr (s.iptr + n)

/-- Status read as a whole: the reserved bit reads as a free value (R25, D18; log 30). -/
def State.readStatus (s : State) (k : Nat) : Word := setStatusBit s.status .reserved (s.freeBit k)

/-- Status written as a whole: the reserved bit is not written (R25, D18; log 30). -/
def State.writeStatus (s : State) (v : Word) : State :=
  s.setStatus (setStatusBit v .reserved (statusBit s.status .reserved))

/-- Write both halves of IOreg (R26). -/
def State.setIoreg (s : State) (input output : BitVec 16) : State := { s with ioreg := ioWord input output }

/-! ## The instruction data value -/

/-- One more prefix: its effect on the instruction data value; an eighth one is refused (R54, D5; log 5). -/
def extendIdv (s : State) (v : Word) : Result :=
  if 7 ≤ s.prefixes then .refused .prefixChainTooLong
  else .next { s with idv := v, prefixes := s.prefixes + 1 }

/-- The instruction encoding is complete: the instruction data value is cleared (R53). -/
def State.clearIdv (s : State) : State := { s with idv := 0#32, prefixes := 0 }

/-! ## Exceptions -/

/-- The process state registers as an exception saves them (R142). -/
def State.context (s : State) : Context :=
  { areg := s.areg
    breg := s.breg
    creg := s.creg
    iptr := s.iptr
    status := s.readStatus 0
    wptr := s.wptr
    tdesc := s.tdesc }

/-- Write the seven process state registers (R142). IOreg is shared with the code they belong to (R26, R142). -/
def State.restore (s : State) (c : Context) : State :=
  { s with
    areg := c.areg
    breg := c.breg
    creg := c.creg
    iptr := c.iptr
    status := setStatusBit c.status .reserved (statusBit s.status .reserved)
    wptr := c.wptr
    tdesc := c.tdesc }

/-- Seven free words: the process state where the spec does not say what it is (R7, R142, R147). -/
def State.freeContext (s : State) : Context :=
  { areg := s.freeWord 0
    breg := s.freeWord 1
    creg := s.freeWord 2
    iptr := s.freeWord 3
    status := s.freeWord 4
    wptr := s.freeWord 5
    tdesc := s.freeWord 6 }

/-- Taking an exception: the seven process state registers are saved, the mode bits say what is executing, and everything
else the handler starts with is lost, hence free (R142, R144, R147; log 24). IOreg is neither saved nor changed. -/
def takeException (kind : ExceptionKind) (s : State) : State :=
  let started := s.restore { s.freeContext with status := handlerModes kind s.status (s.freeWord 4) }
  { started with saved := s.context :: s.saved, draws := s.draws + 7 }

/-- The interrupt controller is told when an interrupt handler ends (R119, R143; log 23). -/
def signalController (s : State) : State :=
  { s with controllerSignals := s.controllerSignals + (signalRequired s.status (s.freeBit 0)).toNat }

/-- Returning from an exception: the seven process state registers of the interrupted code are restored, those of the latest
exception that has not returned; where the model has none saved, the spec does not say what they are, and they are free
(R142, R148; log 23). -/
def returnFromException (s : State) : State :=
  match s.saved with
  | c :: rest => ({ (signalController s).restore c with saved := rest } : State).spend 7
  | [] => ((signalController s).restore s.freeContext).spend 7

end Sys2Proof.Machine
end

