-- ==== Sys2Proof/Machine/Arithmetic.lean ====
section
/-! DEFINITION. Arithmetic, logic and byte order on the evaluation stack (spec/43_secondary_named.md R110 to R115). -/

namespace Sys2Proof.Machine

/-- `add` (R110): the sum of Areg and Breg reduced into range, the overflow flags of the exact sum with the disputed writes
free (D24; log 13), and the stack rotated (D23; log 14). -/
def execAdd (s : State) : Result :=
  let sum := exactSum s.areg s.breg
  .next (((s.setStack (reduce sum) s.creg s.areg).setStatus
    (checkedStatus s.status sum (s.freeBit 0) (s.freeBit 1))).spend 2)

/-- `and` (R111): the bitwise AND of Breg and Areg, and the stack rotated. -/
def execAnd (s : State) : Result := .next (s.setStack (s.breg &&& s.areg) s.creg s.areg)

/-- `mul` (R112, R124): a checked signed multiply that records overflow and underflow in the manner of `add`; its stack
effect is lost, so Breg and Creg are free. The operands are PRESUMED (log 18). -/
def execMul (s : State) : Result :=
  let product := exactProduct s.areg s.breg
  .next (((s.setStack (reduce product) (s.freeWord 0) (s.freeWord 1)).setStatus
    (checkedStatus s.status product (s.freeBit 0) (s.freeBit 1))).spend 2)

/-- `addc` (R113): add with the carry in, and write the carry out, set or clear; the stack effect and the writes of overflow
and underflow are lost, so those are free. The operands are PRESUMED (log 19). -/
def execAddc (s : State) : Result :=
  let c := carryIn s.status
  .next (((s.setStack (s.areg + s.breg + c) (s.freeWord 0) (s.freeWord 1)).setStatus
    (setStatusBit (undefinedFlags s.status (s.freeBit 0) (s.freeBit 1)) .carry (carryOut s.areg s.breg c))).spend 2)

/-- `subc` (R114): Status.carry is written, and the difference is left on the stack; which register is subtracted from which,
what carry means, the stack effect and the writes of overflow and underflow are lost, so all of them are free (log 20). -/
def execSubc (s : State) : Result :=
  .next (((s.setStack (s.freeWord 0) (s.freeWord 1) (s.freeWord 2)).setStatus
    (setStatusBit (undefinedFlags s.status (s.freeBit 0) (s.freeBit 1)) .carry (s.freeBit 2))).spend 3)

/-- `swap32` (R115): the bytes of Areg in the reverse order. -/
def execSwap32 (s : State) : Result := .next (s.setA (swapBytes s.areg))

end Sys2Proof.Machine
end

