-- ==== Sys2Proof/Machine/MultiplyAccumulate.lean ====
section
/-! DEFINITION. The multiply-accumulate instructions (spec/43_secondary_named.md R120, R121): only their names and the
Status fields they use survive, and no sentence states an effect (log 34). -/

namespace Sys2Proof.Machine

/-- `mac` (R120): the definition is lost. -/
def execMac (_s : State) : Result := .refused (.lostDefinition "mac")

/-- `umac` (R121): the definition is lost. -/
def execUmac (_s : State) : Result := .refused (.lostDefinition "umac")

end Sys2Proof.Machine
end

