-- ==== Sys2Proof/Machine/Stack.lean ====
section
/-! DEFINITION. Evaluation stack manipulation (spec/42_stack_manipulation.md, Table 4.2). -/

namespace Sys2Proof.Machine

/-- `rot` (R100): (a, b, c) becomes (b, c, a). -/
def execRot (s : State) : Result := .next (s.popLeaving s.areg)

/-- `arot` (R101): (a, b, c) becomes (c, a, b). -/
def execArot (s : State) : Result := .next (s.push s.creg)

/-- `dup` (R102): (a, b, c) becomes (a, a, b). -/
def execDup (s : State) : Result := .next (s.push s.areg)

/-- `rev` (R103): (a, b, c) becomes (b, a, c). -/
def execRev (s : State) : Result := .next (s.setStack s.breg s.areg s.creg)

end Sys2Proof.Machine
end

