-- ==== Sys2Proof/Machine/System.lean ====
section
/-! DEFINITION. The work space pointer, input/output, the product identity and the exception return
(spec/43_secondary_named.md R116 to R119). -/

namespace Sys2Proof.Machine

/-- `gajw` (R116): Wptr is updated from the evaluation stack; the new value and what is left on the stack are lost, so they
are free (log 21). -/
def execGajw (s : State) : Result :=
  .next (((s.setStack (s.freeWord 0) (s.freeWord 1) (s.freeWord 2)).setWptr (s.freeWord 3)).spend 4)

/-- `io` (R117): IOreg is read and written; the input half is a free value (R26, D19; log 31), and which bits are written and
what is left on the stack are lost, so they are free (log 22). -/
def execIo (s : State) : Result :=
  .next (((s.setStack (s.freeWord 0) (s.freeWord 1) (s.freeWord 2)).setIoreg
    (inputData (s.freeWord 3)) (outputData (s.freeWord 4))).spend 5)

/-- `ldprodid` (R118): push the product identity. -/
def execLdprodid (s : State) : Result := .next (s.push Config.productId)

/-- `eret` (R119, R148): return from an exception. -/
def execEret (s : State) : Result := .next (returnFromException s)

end Sys2Proof.Machine
end

