-- ==== Sys2Proof/Machine/Operate.lean ====
section
/-! DEFINITION. The operate instruction (spec/40_prefix_operate.md R72). -/

namespace Sys2Proof.Machine

/-- Execute the instruction that the operation code `n` selects; only secondary instructions have one (R57), and a row of the
table that names another is no row. -/
def execOperation (n : Word) (i : Instr) (s : State) : Result :=
  match i with
  | .add => execAdd s
  | .and => execAnd s
  | .rot => execRot s
  | .arot => execArot s
  | .dup => execDup s
  | .rev => execRev s
  | .mul => execMul s
  | .addc => execAddc s
  | .subc => execSubc s
  | .swap32 => execSwap32 s
  | .gajw => execGajw s
  | .io => execIo s
  | .ldprodid => execLdprodid s
  | .eret => execEret s
  | .mac => execMac s
  | .umac => execUmac s
  | .pfix _ => .refused (.unknownOperation n)
  | .nfix _ => .refused (.unknownOperation n)
  | .opr _ => .refused (.unknownOperation n)
  | .adc _ => .refused (.unknownOperation n)
  | .ajw _ => .refused (.unknownOperation n)
  | .fcall _ => .refused (.unknownOperation n)
  | .cj _ => .refused (.unknownOperation n)
  | .eqc _ => .refused (.unknownOperation n)
  | .j _ => .refused (.unknownOperation n)
  | .ldc _ => .refused (.unknownOperation n)
  | .ldl _ => .refused (.unknownOperation n)
  | .ldlp _ => .refused (.unknownOperation n)
  | .ldnl _ => .refused (.unknownOperation n)
  | .ldnlp _ => .refused (.unknownOperation n)
  | .stl _ => .refused (.unknownOperation n)
  | .stnl _ => .refused (.unknownOperation n)

/-- The table `OpCode`: the two rows the spec gives, and those the launch adds for codes that have none (R60, D3; log 3). -/
def operationOf (l : Launch) (n : Word) : Option Instr :=
  match opCode n with
  | some i => some i
  | none => l.operations.lookup n

/-- `opr n` (R72): execute the secondary instruction whose operation code is `n`; one whose definition is lost is refused, unless
the launch runs those, and so is a code that no known instruction has (R61, D4, D9; log 3). -/
def execOpr (n : Word) (s : State) : Result :=
  match operationOf s.launch n with
  | some i =>
    if i.lostOperation && !s.launch.runLost then .refused (.lostDefinition i.mnemonic) else execOperation n i s
  | none => .refused (.unknownOperation n)

end Sys2Proof.Machine
end

