-- ==== Sys2Proof/Machine/Prefix.lean ====
section
/-! DEFINITION. The prefixing components `pfix` and `nfix` (spec/40_prefix_operate.md R70, R71). Iptr is already past the
component when a meaning runs (R6). -/

namespace Sys2Proof.Machine

/-- `pfix d` (R70): no register and no memory changes. -/
def execPfix (d : Nibble) (s : State) : Result := extendIdv s (pfixValue s.idv d)

/-- `nfix d` (R71): no register and no memory changes. -/
def execNfix (d : Nibble) (s : State) : Result := extendIdv s (nfixValue s.idv d)

end Sys2Proof.Machine
end

