-- ==== Sys2Proof/Machine/Primary.lean ====
section
/-! DEFINITION. The primary instructions (spec/41_primary.md). `n` is the completed instruction data value (R56), and
`s.iptr` is the address of the next instruction (R6). -/

namespace Sys2Proof.Machine

/-- `adc n` (R80): Areg plus n, modulo 2^32; whether it records overflow and underflow is lost, so both are free
(log 12). -/
def execAdc (n : Word) (s : State) : Result :=
  .next (((s.setA (s.areg + n)).setStatus (undefinedFlags s.status (s.freeBit 0) (s.freeBit 1))).spend 2)

/-- `ajw n` (R81): Wptr moves by n words. The unit is PRESUMED (log 16). -/
def execAjw (n : Word) (s : State) : Result := .next (s.setWptr (wordOffset s.wptr n))

/-- `fcall n` (R82): the definition, the place of the return address and the matching return are lost, and no sentence
states an effect (log 34). -/
def execFcall (_n : Word) (_s : State) : Result := .refused (.lostDefinition "fcall")

/-- `cj n` (R83): jump if Areg is zero, with the stack unchanged; otherwise pop, leaving the old Areg in Creg. -/
def execCj (n : Word) (s : State) : Result :=
  if s.areg = 0#32 then .next (s.jumpBy n) else .next (s.popLeaving s.areg)

/-- `eqc n` (R84): Areg becomes true or false. -/
def execEqc (n : Word) (s : State) : Result := .next (s.setA (boolWord (s.areg == n)))

/-- `j n` (R85): jump by n bytes from the next instruction; it is admitted only while timeslicing is off (D17; log 27). -/
def execJ (n : Word) (s : State) : Result :=
  if statusBit s.status .timesliceEnable then .refused .timeslicing else .next (s.jumpBy n)

/-- `ldc n` (R86): push the constant. -/
def execLdc (n : Word) (s : State) : Result := .next (s.push n)

/-- `ldl n` (R87): push the word n words from Wptr. -/
def execLdl (n : Word) (s : State) : Result := withWord s (wordOffset s.wptr n) (fun v => s.push v)

/-- `ldlp n` (R88): push the address n words from Wptr. -/
def execLdlp (n : Word) (s : State) : Result := .next (s.push (wordOffset s.wptr n))

/-- `ldnl n` (R89): the word n words from Areg replaces Areg. -/
def execLdnl (n : Word) (s : State) : Result := withWord s (wordOffset s.areg n) (fun v => s.setA v)

/-- `ldnlp n` (R90): the address n words from Areg replaces Areg. -/
def execLdnlp (n : Word) (s : State) : Result := .next (s.setA (wordOffset s.areg n))

/-- `stl n` (R91): store Areg n words from Wptr and pop; Creg is undefined (D27; log 17). -/
def execStl (n : Word) (s : State) : Result :=
  andThen (store s (wordOffset s.wptr n) 4 s.areg) (fun t => (t.popLeaving (s.freeWord 0)).spend 1)

/-- `stnl n` (R92): store Breg n words from Areg and pop both; Breg and Creg are undefined (D27; log 17). -/
def execStnl (n : Word) (s : State) : Result :=
  andThen (store s (wordOffset s.areg n) 4 s.breg)
    (fun t => (t.setStack s.creg (s.freeWord 0) (s.freeWord 1)).spend 2)

end Sys2Proof.Machine
end

