-- ==== Sys2Proof/Machine/Dispatch.lean ====
section
/-! DEFINITION. One arm per instruction. -/

namespace Sys2Proof.Machine

def exec (i : Instr) (s : State) : Host.Outcome State Fault Refusal :=
  match i with
  | .pfix d => Sys2Proof.Machine.execPfix d s
  | .nfix d => Sys2Proof.Machine.execNfix d s
  | .opr n => Sys2Proof.Machine.execOpr n s
  | .adc n => Sys2Proof.Machine.execAdc n s
  | .ajw n => Sys2Proof.Machine.execAjw n s
  | .fcall n => Sys2Proof.Machine.execFcall n s
  | .cj n => Sys2Proof.Machine.execCj n s
  | .eqc n => Sys2Proof.Machine.execEqc n s
  | .j n => Sys2Proof.Machine.execJ n s
  | .ldc n => Sys2Proof.Machine.execLdc n s
  | .ldl n => Sys2Proof.Machine.execLdl n s
  | .ldlp n => Sys2Proof.Machine.execLdlp n s
  | .ldnl n => Sys2Proof.Machine.execLdnl n s
  | .ldnlp n => Sys2Proof.Machine.execLdnlp n s
  | .stl n => Sys2Proof.Machine.execStl n s
  | .stnl n => Sys2Proof.Machine.execStnl n s
  | .add => Sys2Proof.Machine.execAdd s
  | .and => Sys2Proof.Machine.execAnd s
  | .rot => Sys2Proof.Machine.execRot s
  | .arot => Sys2Proof.Machine.execArot s
  | .dup => Sys2Proof.Machine.execDup s
  | .rev => Sys2Proof.Machine.execRev s
  | .mul => Sys2Proof.Machine.execMul s
  | .addc => Sys2Proof.Machine.execAddc s
  | .subc => Sys2Proof.Machine.execSubc s
  | .swap32 => Sys2Proof.Machine.execSwap32 s
  | .gajw => Sys2Proof.Machine.execGajw s
  | .io => Sys2Proof.Machine.execIo s
  | .ldprodid => Sys2Proof.Machine.execLdprodid s
  | .eret => Sys2Proof.Machine.execEret s
  | .mac => Sys2Proof.Machine.execMac s
  | .umac => Sys2Proof.Machine.execUmac s

end Sys2Proof.Machine
end

