-- ==== Sys2Proof/Machine/Fetch.lean ====
section
/-! DEFINITION. What a step does around the execution of an instruction: the events between instructions, the fetch of one
component and the advance of Iptr (spec/00_scope.md R6, spec/30_encoding.md R53, R64), and the placing of code by a
launch. -/

namespace Sys2Proof.Machine

/-- What happens between instructions in place of the next one, if anything: the run ends (R173; log 28), the scheduler or
sleep acts (R23, R24, R150, R151; log 26), or the first exception the environment presents is taken (R143, R146, R152;
log 25). Nothing happens between a prefix and the component it prefixes (R53, D25). -/
def boundaryEvent (s : State) : Option Result :=
  if s.prefixes ≠ 0 then none
  else if s.launch.endAddr = some s.iptr then some (.refused .endOfRun)
  else if statusBit s.status .sleep then some (.refused .sleepState)
  else if statusBit s.status .startNextTask then some (.refused .processSwitch)
  else
    match s.pending with
    | [] => none
    | kind :: rest =>
      if canTake s.status kind then some (.next (takeException kind { s with pending := rest })) else none

/-- What comes before an instruction in place of it: an event between instructions, and otherwise a stop while timeslicing is on,
since no instruction is admitted then (R152, R171, D17; log 27). -/
def precedingEvent (s : State) : Option Result :=
  match boundaryEvent s with
  | some o => some o
  | none => if statusBit s.status .timesliceEnable then some (.refused .timeslicing) else none

/-- Iptr moves past the component; a component that completes its instruction clears the instruction data value
(R6, R14, R53, D22; log 36). Between the components of one instruction Iptr stands at the next component: DESIGN CHOICE
(log 1). -/
def advance (i : Instr) (s : State) : State :=
  let t := s.setIptr (s.iptr + 1#32)
  if i.isPrefixing then t else t.clearIdv

/-- The byte at Iptr as a fetch reads it: inside `ReservedAddresses` any value at every read (R39, 93_implementation_defined.md
U7; log 9). -/
def fetchedByte (s : State) : Byte :=
  if inRegions s.launch.reserved s.iptr then byteOf (s.freeWord 0) 0 else Memory.byte s.mem s.iptr

/-- A fetch inside `ReservedAddresses` uses one free value. -/
def fetchSpent (s : State) : State := if inRegions s.launch.reserved s.iptr then s.spend 1 else s

/-- The component at Iptr, decoded under the instruction data value and the launch's function codes (R59, R64). -/
def fetchedInstr (s : State) : Instr := decodeComponent s.launch.functions s.idv (fetchedByte s)

/-- Fetch the component at Iptr (R64). A fetch outside `MemMap` is a fault of the model (D21, D22; log 10). -/
def fetch (s : State) : Except Fault (Instr × State) :=
  if inRegions s.launch.memMap s.iptr then .ok (fetchedInstr s, advance (fetchedInstr s) (fetchSpent s))
  else .error .outsideMemMap

/-- A launch that admits the eight bytes of code upward from `a`, does not end there, and has the function codes of the opcode
table. -/
def Launch.admitting (l : Launch) (a : Word) : Launch :=
  { l with
    memMap := if allInRegions l.memMap a 8 then l.memMap else { base := a, size := 8 } :: l.memMap
    reserved := l.reserved.filter (fun r => !someInRegions [r] a 8)
    endAddr := if l.endAddr = some a then none else l.endAddr
    functions := defaultFnTable }

/-- A launch places the eight bytes of `w`, the least significant first, at Iptr, at an instruction boundary with no event
before the instruction (R170, R171; log 33). -/
def placeCode (s : State) (w : Nat) : State :=
  { s with
    mem := Memory.write (Memory.write s.mem s.iptr 4 (BitVec.ofNat 32 w)) (s.iptr + 4#32) 4
      (BitVec.ofNat 32 (w / 4294967296))
    idv := 0#32
    prefixes := 0
    status := setStatusBit (setStatusBit (setStatusBit s.status .sleep false) .startNextTask false)
      .timesliceEnable false
    pending := []
    launch := s.launch.admitting s.iptr }

end Sys2Proof.Machine
end

