-- ==== Sys2Proof/Machine/Step.lean ====
section
/-! DEFINITION. One step: an event between instructions, or one component fetched, decoded and executed
(spec/30_encoding.md R53, R64; log 1). -/

namespace Sys2Proof.Machine

def step (s : State) : Host.Outcome State Fault Refusal :=
  match precedingEvent s with
  | some o => o
  | none =>
    match fetch s with
    | .error f => .fault f
    | .ok (i, t) => exec i t

/-- The machine with an instruction word stored where the next step fetches it (log 33). -/
def State.withFetchWord (s : State) (nbits w : Nat) : State := placeCode s (w % 2 ^ nbits)

end Sys2Proof.Machine
end

