-- ==== Sys2Proof/Safety.lean ====
section
/-! DEFINITION. The terms claims are stated in: the launch premises of spec/70_reset_and_hazards.md R171, admitted accesses,
the invariant of the machine, what a frame leaves unchanged, and a safe run. -/

namespace Sys2Proof

open Sys2Proof.Machine

/-! ## The launch premises (R171) -/

/-- `IdvZero`: no instruction is half built (R52, R171). -/
def IdvZero (s : State) : Prop := s.idv = 0#32 ∧ s.prefixes = 0

/-- `WptrAligned`: the work space pointer is word aligned (R15, R171). -/
def WptrAligned (s : State) : Prop := byteSelector s.wptr = 0#2

/-- `NoException`: the environment presents no exception that can be taken (R147, R171). -/
def NoException (s : State) : Prop := ∀ kind ∈ s.pending, canTake s.status kind = false

/-- `NoTimeslice`: timeslicing is off (R152, R171). -/
def NoTimeslice (s : State) : Prop := statusBit s.status .timesliceEnable = false

/-- `NoSchedule`: neither the scheduler nor sleep is due (R150, R151, R171). -/
def NoSchedule (s : State) : Prop :=
  statusBit s.status .startNextTask = false ∧ statusBit s.status .sleep = false

/-- `TextFixed`, for one store of `n` bytes: it does not touch the program text (R44, R171). -/
def TextFixed (s : State) (a : Word) (n : Nat) : Prop :=
  ∀ k < n, inRegions s.launch.text (a + BitVec.ofNat 32 k) = false

/-- `MemAdmitted`, for one access of `n` bytes: every byte is in `MemMap` and none in `ReservedAddresses` (R39, R171). -/
def MemAdmitted (s : State) (a : Word) (n : Nat) : Prop :=
  ∀ k < n, inRegions s.launch.memMap (a + BitVec.ofNat 32 k) = true ∧
    inRegions s.launch.reserved (a + BitVec.ofNat 32 k) = false

/-- The run has not reached `EndAddr` (R173). -/
def NotEnded (s : State) : Prop := s.launch.endAddr ≠ some s.iptr

/-- The next thing is an instruction: timeslicing is off, and between instructions the run has not ended, and neither an
exception nor the scheduler nor sleep comes first (R171, R173). Inside an instruction nothing can come first (R53, D25). -/
def Quiet (s : State) : Prop := NoTimeslice s ∧ (s.prefixes = 0 → NotEnded s ∧ NoSchedule s ∧ NoException s)

/-- A word access the spec gives a meaning: word aligned (R35) and admitted. -/
def WordAdmitted (s : State) (a : Word) : Prop := a.toNat % 4 = 0 ∧ MemAdmitted s a 4

/-- The bytes from Iptr on are `bs`, in memory the launch admits and outside the reserved addresses (R39, R64, D21). -/
def CodeAt (s : State) (bs : List Byte) : Prop :=
  ∀ k, (h : k < bs.length) →
    Memory.byte s.mem (s.iptr + BitVec.ofNat 32 k) = bs[k] ∧
      inRegions s.launch.memMap (s.iptr + BitVec.ofNat 32 k) = true ∧
      inRegions s.launch.reserved (s.iptr + BitVec.ofNat 32 k) = false

/-! ## The invariant -/

/-- What every step keeps: memory has its canonical form, the low four bits of the instruction data value are zero between
components (R52), at most seven prefixes have been taken (R54), and without a prefix the value is zero (R52, R53). -/
def Inv (s : State) : Prop :=
  Memory.wf s.mem ∧ s.idv.extractLsb' 0 4 = 0#4 ∧ s.prefixes ≤ 7 ∧ (s.prefixes = 0 → s.idv = 0#32)

/-! ## Frames (R5) -/

/-- Every byte of memory reads as before. -/
def MemoryUnchanged (s t : State) : Prop := ∀ a : Word, Memory.byte t.mem a = Memory.byte s.mem a

/-- Every byte of memory outside the `n` bytes upward from `a` reads as before. -/
def MemoryUnchangedOutside (a : Word) (n : Nat) (s t : State) : Prop :=
  ∀ b : Word, (∀ k < n, b ≠ a + BitVec.ofNat 32 k) → Memory.byte t.mem b = Memory.byte s.mem b

/-- Every bit of Status but those of the fields named is as before. -/
def StatusUnchangedBut (fields : List StatusBit) (s t : State) : Prop :=
  ∀ k < 32, (∀ f ∈ fields, k ≠ f.position) → t.status.getLsbD k = s.status.getLsbD k

/-- The state outside the evaluation stack, Iptr, Status, Wptr and memory is as before: Tdesc, IOreg, the instruction data
value, the saved process states, the environment's exceptions, the signals to the interrupt controller, the launch. -/
def SystemUnchanged (s t : State) : Prop :=
  t.tdesc = s.tdesc ∧ t.ioreg = s.ioreg ∧ t.idv = s.idv ∧ t.prefixes = s.prefixes ∧ t.saved = s.saved ∧
    t.pending = s.pending ∧ t.controllerSignals = s.controllerSignals ∧ t.launch = s.launch

/-- Only the evaluation stack may have changed. -/
def OnlyStackChanged (s t : State) : Prop :=
  t.iptr = s.iptr ∧ t.wptr = s.wptr ∧ t.status = s.status ∧ SystemUnchanged s t ∧ MemoryUnchanged s t

/-- Only the evaluation stack and the Status fields named may have changed. -/
def OnlyStackAndStatusChanged (fields : List StatusBit) (s t : State) : Prop :=
  t.iptr = s.iptr ∧ t.wptr = s.wptr ∧ StatusUnchangedBut fields s t ∧ SystemUnchanged s t ∧ MemoryUnchanged s t

/-- The evaluation stack holds these three values, Areg first. -/
def StackIs (t : State) (a b c : Word) : Prop := t.areg = a ∧ t.breg = b ∧ t.creg = c

/-- The seven process state registers hold these values, but for the reserved bit of Status (R25, R142). -/
def HoldsContext (t : State) (c : Context) : Prop :=
  StackIs t c.areg c.breg c.creg ∧ t.iptr = c.iptr ∧ t.wptr = c.wptr ∧ t.tdesc = c.tdesc ∧
    ∀ k < 32, k ≠ StatusBit.reserved.position → t.status.getLsbD k = c.status.getLsbD k

/-! ## Safe runs -/

/-- `exec i` answers a next state. -/
def Completes (i : Instr) (s : State) : Prop := ∃ t, exec i s = .next t

/-- Executing `i` is executing the secondary instruction `k`: `i` is `k`, or `opr` with an operation code of it (R72). -/
def ExecutesAs (i : Instr) (s : State) (k : Instr) : Prop :=
  i = k ∨ ∃ n, i = .opr n ∧ operationOf s.launch n = some k

/-- The instructions whose effect rests on no condition on the state: neither on an address, nor on the prefixes taken, nor on
timeslicing, nor on the launch's tables, nor lost. -/
def Instr.unconditional : Instr → Bool
  | .adc _ => true
  | .ajw _ => true
  | .cj _ => true
  | .eqc _ => true
  | .ldc _ => true
  | .ldlp _ => true
  | .ldnlp _ => true
  | .add => true
  | .and => true
  | .rot => true
  | .arot => true
  | .dup => true
  | .rev => true
  | .mul => true
  | .addc => true
  | .subc => true
  | .swap32 => true
  | .gajw => true
  | .io => true
  | .ldprodid => true
  | .eret => true
  | .pfix _ => false
  | .nfix _ => false
  | .opr _ => false
  | .fcall _ => false
  | .j _ => false
  | .ldl _ => false
  | .ldnl _ => false
  | .stl _ => false
  | .stnl _ => false
  | .mac => false
  | .umac => false

/-- The machine takes `k` steps from `s` without a fault or a refusal. -/
def SafeRun (k : Nat) (s : State) : Prop := ∃ t : State, Host.Core.run Sys2Proof.core k s = .next t

end Sys2Proof
end

