-- ==== Sys2Proof/WellFormed.lean ====
section
/-! DEFINITION. Which instructions are words of the machine: those that have bytes in the surviving encoding tables, each
in its one form. An operand's width is in its type, so it needs no check. -/

namespace Sys2Proof

/-- A secondary instruction has bytes when its operation code survives (R60). -/
def hasOperationCode (i : Instr) : Bool := (operationCode i).isSome

/-- `opr n` stands for itself only where no known instruction has the code `n`; otherwise its bytes are that
instruction's (R72). -/
def operateIsBare (n : Word) : Bool := (opCode n).isNone

/-- The instructions that some bytes decode to (R64, R67). -/
def Instr.wellFormed : Instr → Bool
  | .pfix _ => true
  | .nfix _ => true
  | .opr n => operateIsBare n
  | .adc _ => true
  | .ajw _ => true
  | .fcall _ => true
  | .cj _ => true
  | .eqc _ => true
  | .j _ => true
  | .ldc _ => true
  | .ldl _ => true
  | .ldlp _ => true
  | .ldnl _ => true
  | .ldnlp _ => true
  | .stl _ => true
  | .stnl _ => true
  | .add => hasOperationCode .add
  | .and => hasOperationCode .and
  | .rot => hasOperationCode .rot
  | .arot => hasOperationCode .arot
  | .dup => hasOperationCode .dup
  | .rev => hasOperationCode .rev
  | .mul => hasOperationCode .mul
  | .addc => hasOperationCode .addc
  | .subc => hasOperationCode .subc
  | .swap32 => hasOperationCode .swap32
  | .gajw => hasOperationCode .gajw
  | .io => hasOperationCode .io
  | .ldprodid => hasOperationCode .ldprodid
  | .eret => hasOperationCode .eret
  | .mac => hasOperationCode .mac
  | .umac => hasOperationCode .umac

end Sys2Proof
end

