-- ==== Sys2Proof/Certificates/Slice0/Obligations.lean ====
section
/-! DEFINITION. The statements for the provers. Each is of the machine, over all states and operands; the frame predicates,
the launch premises and the invariant are those of Sys2Proof/Safety.lean. -/

open Sys2Proof Sys2Proof.Machine


/-- The two surviving operation codes decode to add and and, and the decoder reads any other as the bare opr. From
spec/30_encoding.md section 4; spec/90_conflicts.md C1; spec/92_eei_decisions.md D2, D3. That F9 is and is the
spec's resolution C1 (log 4); that the decoder knows these two rows alone is the model's choice (log 3). -/
def Obligations.SurvivingOperationCodesDecode : Prop :=
  ∀ t : FnTable, t.wf →
    decode t [0xF4#8] = .ok (.add, []) ∧ decode t [0xF9#8] = .ok (.and, []) ∧
    ∀ n : Word, n ≠ 4#32 → n ≠ 9#32 → decode t (encodeOperand t .opr n) = .ok (.opr n, [])

/-- Words written out from the spec's encodings decode to the instructions they stand for. From
spec/95_test_vectors.md sections 1 and 2; spec/30_encoding.md section 4. The function codes other than those of adc
and opr are PRESUMED (log 2). -/
def Obligations.WordsOfTheSpecDecode : Prop :=
  decode defaultFnTable [0x81#8] = .ok (.adc 1#32, []) ∧
    decode defaultFnTable [0x22#8, 0x2A#8, 0x26#8, 0x48#8] = .ok (.ldc 0x2A68#32, []) ∧
    decode defaultFnTable [0x60#8, 0x4F#8] = .ok (.ldc 0xFFFFFFFF#32, []) ∧
    decode defaultFnTable [0x27#8, 0x2F#8, 0x2F#8, 0x2F#8, 0x2F#8, 0x2F#8, 0x6F#8, 0x40#8] = .ok (.ldc 0x80000000#32, []) ∧
    decode defaultFnTable [0x6F#8, 0x6F#8, 0x4F#8] = .ok (.ldc 0xF0F#32, []) ∧
    decode defaultFnTable [0xA6#8] = .ok (.cj 6#32, []) ∧ decode defaultFnTable [0x95#8] = .ok (.fcall 5#32, []) ∧
    decode defaultFnTable [0xD1#8] = .ok (.stl 1#32, []) ∧ decode defaultFnTable [0xE3#8] = .ok (.stnl 3#32, []) ∧
    decode defaultFnTable [0x60#8, 0xBC#8] = .ok (.ajw 0xFFFFFFFC#32, [])

/-- Decoding the encoding of a well-formed instruction gives it back, whatever bytes follow. From
spec/30_encoding.md section 6. -/
def Obligations.DecodeOfEncodeIsTheInstruction : Prop :=
  ∀ (t : FnTable) (i : Instr) (rest : List Byte), t.wf → i.wellFormed = true → i.isPrefixing = false →
    decode t (encode t i ++ rest) = .ok (i, rest)

/-- The byte of a prefixing component decodes to it under every instruction data value. From spec/30_encoding.md
section 1; spec/40_prefix_operate.md. -/
def Obligations.PrefixComponentsDecode : Prop :=
  ∀ (t : FnTable) (idv : Word) (d : Nibble) (b : Byte), t.wf →
    (encode t (.pfix d) = [b] → decodeComponent t idv b = .pfix d) ∧
    (encode t (.nfix d) = [b] → decodeComponent t idv b = .nfix d)

/-- No byte sequence that decodes to an instruction is shorter than its encoding. From spec/30_encoding.md section
6. -/
def Obligations.EncodingIsShortest : Prop :=
  ∀ (t : FnTable) (bs : List Byte) (i : Instr), decode t bs = .ok (i, []) → (encode t i).length ≤ bs.length

/-- Any chain of up to seven prefixes completes an instruction, and a longer chain is rejected by name. From
spec/30_encoding.md sections 2 and 6; spec/92_eei_decisions.md D5, D6. That a longer chain is rejected is the spec's
decision D5 (log 5). -/
def Obligations.SevenPrefixesAtMost : Prop :=
  ∀ (t : FnTable) (ps : List Byte) (b : Byte) (rest : List Byte),
    (∀ p ∈ ps, componentFunction t p = .pfix ∨ componentFunction t p = .nfix) →
    componentFunction t b ≠ .pfix → componentFunction t b ≠ .nfix →
    (ps.length ≤ 7 → ∃ i : Instr, i.isPrefixing = false ∧ decode t (ps ++ b :: rest) = .ok (i, rest)) ∧
    (7 < ps.length → decode t (ps ++ b :: rest) = .error .prefixChainTooLong)

/-- The decoder answers only well-formed instructions, never one whose operation code is lost. From
spec/30_encoding.md sections 4 and 7. -/
def Obligations.DecodedComponentsAreWellFormed : Prop :=
  ∀ (t : FnTable) (idv : Word) (b : Byte), (decodeComponent t idv b).wellFormed = true ∧
    (idv.extractLsb' 0 4 = 0#4 → ∃ v, (decodeComponent t idv b).dataValue = some v ∧
      v.extractLsb' 0 4 = b.extractLsb' 0 4 ∧
      ((decodeComponent t idv b).isPrefixing = false → v.extractLsb' 4 28 = idv.extractLsb' 4 28))

/-- A step is the execution of the component at Iptr, with Iptr past it and the data value cleared when it
completes. From spec/00_scope.md section 5.2; spec/30_encoding.md sections 2 and 6; spec/92_eei_decisions.md D1;
spec/93_implementation_defined.md U7. That the model steps by component, with Iptr at the next one, is its choice
(log 1); the free byte is the spec's U7 (log 9). -/
def Obligations.StepRunsTheDecodedComponent : Prop :=
  ∀ s : State, Quiet s → inRegions s.launch.memMap s.iptr = true →
    ∃ (b : Byte) (d : Nat),
      (inRegions s.launch.reserved s.iptr = false → b = Memory.byte s.mem s.iptr ∧ d = 0) ∧
      (inRegions s.launch.reserved s.iptr = true → b = byteOf (Config.freeWord s.draws) 0 ∧ d = 1) ∧
      ∀ i, i = decodeComponent s.launch.functions s.idv b →
        (i.isPrefixing = true → step s = exec i { s with iptr := s.iptr + 1#32, draws := s.draws + d }) ∧
        (i.isPrefixing = false →
          step s = exec i { s with iptr := s.iptr + 1#32, draws := s.draws + d, idv := 0#32, prefixes := 0 })

/-- Stepping through the components of an instruction is one execution of the whole instruction. From
spec/30_encoding.md sections 2 and 6; spec/92_eei_decisions.md D1, D25. Stepping by component is the model's choice
(log 1). -/
def Obligations.StepsRunTheWholeInstruction : Prop :=
  ∀ (s : State) (bs : List Byte) (i : Instr) (rest : List Byte),
    IdvZero s → Quiet s → CodeAt s bs → decode s.launch.functions bs = .ok (i, rest) →
    Host.Core.run Sys2Proof.core (bs.length - rest.length) s =
      exec i { s with iptr := s.iptr + BitVec.ofNat 32 (bs.length - rest.length) }

/-- Every step keeps memory canonical and the instruction data value well built. From spec/30_encoding.md section 2;
spec/20_memory.md section 1. -/
def Obligations.StepKeepsTheInvariant : Prop :=
  ∀ s t : State, Inv s → step s = .next t → Inv t

/-- The state after reset meets the invariant and the launch premises. From spec/10_state.md section 5. The reset
value of Status and of Wptr is the model's choice (log 6). -/
def Obligations.ResetMeetsTheInvariant : Prop :=
  Inv State.reset ∧ IdvZero State.reset ∧ Quiet State.reset ∧ NoTimeslice State.reset ∧ WptrAligned State.reset

/-- No step changes the launch parameters. From spec/70_reset_and_hazards.md section 1; spec/92_eei_decisions.md
section 6. -/
def Obligations.StepKeepsTheLaunch : Prop :=
  ∀ s t : State, step s = .next t → t.launch = s.launch

/-- A fetch outside MemMap is the model's fault. From spec/92_eei_decisions.md D21, D22. The spec's decision D21
(log 10). -/
def Obligations.FetchOutsideMemMapFaults : Prop :=
  ∀ s : State, Quiet s → inRegions s.launch.memMap s.iptr = false → step s = .fault .outsideMemMap

/-- A word placed for the next fetch is the component the next step executes. From spec/70_reset_and_hazards.md
section 1; spec/92_eei_decisions.md D14. The placing of code is the model's choice: the spec describes no load (log
33). -/
def Obligations.FetchWordRunsNext : Prop :=
  ∀ (s : State) (b : Byte), ∀ t, t = s.withFetchWord 8 b.toNat →
    decodeTableWord 8 b.toNat = some (decodeComponent defaultFnTable 0#32 b) ∧
      step t = exec (decodeComponent defaultFnTable 0#32 b) (advance (decodeComponent defaultFnTable 0#32 b) t)

/-- pfix loads its data and shifts the instruction data value up four places. From spec/40_prefix_operate.md;
spec/92_eei_decisions.md D5. The effect is rule R70's; the refusal is decision D5 and the model's choice (log 5). -/
def Obligations.PrefixBuildsTheDataValue : Prop :=
  ∀ (d : Nibble) (s : State),
    (s.prefixes < 7 → ∃ t, exec (.pfix d) s = .next t ∧
      t.idv.toNat = (s.idv ||| d.setWidth 32).toNat * 16 % 4294967296 ∧
      t = { s with idv := t.idv, prefixes := s.prefixes + 1 }) ∧
    (7 ≤ s.prefixes → exec (.pfix d) s = .refused .prefixChainTooLong)

/-- nfix loads its data, complements all 32 bits and shifts up four places. From spec/40_prefix_operate.md;
spec/92_eei_decisions.md D5. The effect is rule R71's; the refusal is decision D5 and the model's choice (log 5). -/
def Obligations.NegativePrefixComplementsTheDataValue : Prop :=
  ∀ (d : Nibble) (s : State),
    (s.prefixes < 7 → ∃ t, exec (.nfix d) s = .next t ∧
      t.idv.toNat = (4294967295 - (s.idv ||| d.setWidth 32).toNat) * 16 % 4294967296 ∧
      t = { s with idv := t.idv, prefixes := s.prefixes + 1 }) ∧
    (7 ≤ s.prefixes → exec (.nfix d) s = .refused .prefixChainTooLong)

/-- opr executes the secondary instruction its operation code selects and refuses an unknown code by name. From
spec/40_prefix_operate.md; spec/30_encoding.md section 4. The refusals are the spec's decisions D4 and D9, the added
rows and runLost the launch's (log 3). -/
def Obligations.OperateExecutesTheSelectedInstruction : Prop :=
  ∀ (n : Word) (s : State),
    (∀ i, opCode n = some i → ∃ t, exec (.opr n) s = .next t ∧ exec i s = .next t) ∧
    (∀ i, operationOf s.launch n = some i → i.isSecondary = true →
      i.lostOperation = false ∨ s.launch.runLost = true → exec (.opr n) s = exec i s) ∧
    (∀ i, operationOf s.launch n = some i → i.lostOperation = true → s.launch.runLost = false →
      exec (.opr n) s = .refused (.lostDefinition i.mnemonic)) ∧
    (∀ i, operationOf s.launch n = some i → i.isSecondary = false →
      exec (.opr n) s = .refused (.unknownOperation n)) ∧
    (operationOf s.launch n = none → exec (.opr n) s = .refused (.unknownOperation n))

/-- adc adds its operand to Areg and leaves overflow and underflow free. From spec/41_primary.md The rules. The spec
derives the result and leaves the flags as draws (logs 12 and 15). -/
def Obligations.AddConstantAddsToAreg : Prop :=
  ∀ (n : Word) (s : State), ∃ t, exec (.adc n) s = .next t ∧
    t.areg.toNat = (s.areg.toNat + n.toNat) % 4294967296 ∧ t.breg = s.breg ∧ t.creg = s.creg ∧
    statusBit t.status .overflow = Config.freeBit s.draws ∧
    statusBit t.status .underflow = Config.freeBit (s.draws + 1) ∧
    OnlyStackAndStatusChanged [.overflow, .underflow] s t ∧ t.draws = s.draws + 2

/-- ajw moves Wptr by its operand in words and keeps it aligned. From spec/41_primary.md The rules. The unit of
words is PRESUMED (log 16). -/
def Obligations.AdjustWorkSpaceMovesWptr : Prop :=
  ∀ (n : Word) (s : State), ∃ t, exec (.ajw n) s = .next t ∧
    t.wptr.toNat = (s.wptr.toNat + 4 * n.toNat) % 4294967296 ∧ byteSelector t.wptr = byteSelector s.wptr ∧
    StackIs t s.areg s.breg s.creg ∧ t.iptr = s.iptr ∧ t.status = s.status ∧
    SystemUnchanged s t ∧ MemoryUnchanged s t

/-- fcall is refused, its definition being lost. From spec/41_primary.md The rules; spec/92_eei_decisions.md D9. The
refusal is the spec's decision D9 (log 34). -/
def Obligations.FunctionCallIsRefused : Prop :=
  ∀ (n : Word) (s : State), exec (.fcall n) s = .refused (.lostDefinition "fcall")

/-- cj jumps when Areg is zero and otherwise pops, keeping the old Areg in Creg. Rule R83. -/
def Obligations.ConditionalJumpOnZero : Prop :=
  ∀ (n : Word) (s : State), ∃ t, exec (.cj n) s = .next t ∧
    (s.areg = 0#32 → t.iptr.toNat = (s.iptr.toNat + n.toNat) % 4294967296 ∧
      StackIs t s.areg s.breg s.creg) ∧
    (s.areg ≠ 0#32 → t.iptr = s.iptr ∧ StackIs t s.breg s.creg s.areg) ∧
    t.wptr = s.wptr ∧ t.status = s.status ∧ SystemUnchanged s t ∧ MemoryUnchanged s t

/-- eqc puts true or false in Areg. From spec/41_primary.md The rules; spec/00_scope.md section 5.1. The spec
derives this (log 15). -/
def Obligations.EqualsConstantGivesABoolean : Prop :=
  ∀ (n : Word) (s : State), ∃ t, exec (.eqc n) s = .next t ∧
    (s.areg = n → t.areg = 1#32) ∧ (s.areg ≠ n → t.areg = 0#32) ∧ t.breg = s.breg ∧ t.creg = s.creg ∧
    OnlyStackChanged s t

/-- With timeslicing off j adds its operand to the address of the next instruction, and with it on is refused. From
spec/41_primary.md The rules; spec/60_exceptions.md section 3; spec/92_eei_decisions.md D17. The spec derives the
jump (log 15); the premise is its decision D17 and the refusal the model's choice (log 27). -/
def Obligations.JumpAddsToIptr : Prop :=
  ∀ (n : Word) (s : State),
    (NoTimeslice s → ∃ t, exec (.j n) s = .next t ∧
      t.iptr.toNat = (s.iptr.toNat + n.toNat) % 4294967296 ∧ StackIs t s.areg s.breg s.creg ∧
      t.wptr = s.wptr ∧ t.status = s.status ∧ SystemUnchanged s t ∧ MemoryUnchanged s t) ∧
    (¬ NoTimeslice s → exec (.j n) s = .refused .timeslicing)

/-- ldc, ldlp and ldprodid push the constant, the address in the work space, the product identity. From
spec/41_primary.md The rules; spec/43_secondary_named.md section 1; spec/10_state.md section 1. The spec derives the
pushes (logs 15 and 35). -/
def Obligations.LoadConstantAndPointersPush : Prop :=
  ∀ (n : Word) (s : State),
    (∃ t, exec (.ldc n) s = .next t ∧ StackIs t n s.areg s.breg ∧ OnlyStackChanged s t) ∧
    (∃ t, exec (.ldlp n) s = .next t ∧ StackIs t (wordOffset s.wptr n) s.areg s.breg ∧ OnlyStackChanged s t) ∧
    (∃ t, exec .ldprodid s = .next t ∧ StackIs t Config.productId s.areg s.breg ∧ OnlyStackChanged s t)

/-- ldl pushes the word at its word offset from Wptr. From spec/41_primary.md The rules. The spec derives the push
(log 15). -/
def Obligations.LoadLocalPushesTheWord : Prop :=
  ∀ (n : Word) (s : State), WordAdmitted s (wordOffset s.wptr n) →
    ∃ t, exec (.ldl n) s = .next t ∧
      StackIs t (Memory.read s.mem (wordOffset s.wptr n) 4) s.areg s.breg ∧ OnlyStackChanged s t

/-- ldnl replaces Areg by the word at its word offset from Areg, and ldnlp by that address. From spec/41_primary.md
The rules. The frame and ldnlp are the spec's derivation (log 15). -/
def Obligations.LoadNonLocalReplacesAreg : Prop :=
  ∀ (n : Word) (s : State),
    (WordAdmitted s (wordOffset s.areg n) → ∃ t, exec (.ldnl n) s = .next t ∧
      StackIs t (Memory.read s.mem (wordOffset s.areg n) 4) s.breg s.creg ∧ OnlyStackChanged s t) ∧
    (∃ t, exec (.ldnlp n) s = .next t ∧ StackIs t (wordOffset s.areg n) s.breg s.creg ∧ OnlyStackChanged s t)

/-- stl writes Areg at its word offset from Wptr, pops, and changes no other byte. From spec/41_primary.md The
rules. The pop is the spec's derivation and Creg its decision D27 (log 17). -/
def Obligations.StoreLocalWritesTheWord : Prop :=
  ∀ (n : Word) (s : State), WordAdmitted s (wordOffset s.wptr n) → TextFixed s (wordOffset s.wptr n) 4 →
    ∃ t, exec (.stl n) s = .next t ∧ Memory.read t.mem (wordOffset s.wptr n) 4 = s.areg ∧
      MemoryUnchangedOutside (wordOffset s.wptr n) 4 s t ∧
      StackIs t s.breg s.creg (Config.freeWord s.draws) ∧
      t.iptr = s.iptr ∧ t.wptr = s.wptr ∧ t.status = s.status ∧ SystemUnchanged s t ∧
      t.draws = s.draws + 1

/-- stnl writes Breg at its word offset from Areg, pops both, and changes no other byte. From spec/41_primary.md The
rules. PRESUMED and D27 (log 17). -/
def Obligations.StoreNonLocalWritesTheWord : Prop :=
  ∀ (n : Word) (s : State), WordAdmitted s (wordOffset s.areg n) → TextFixed s (wordOffset s.areg n) 4 →
    ∃ t, exec (.stnl n) s = .next t ∧ Memory.read t.mem (wordOffset s.areg n) 4 = s.breg ∧
      MemoryUnchangedOutside (wordOffset s.areg n) 4 s t ∧
      StackIs t s.creg (Config.freeWord s.draws) (Config.freeWord (s.draws + 1)) ∧
      t.iptr = s.iptr ∧ t.wptr = s.wptr ∧ t.status = s.status ∧ SystemUnchanged s t ∧
      t.draws = s.draws + 2

/-- ldl, ldnl, stl and stnl at an inadmissible address are the first of misalignedAccess, outsideMemMap,
reservedAddress. From spec/20_memory.md sections 3 and 4; spec/92_eei_decisions.md D7, D21. The spec's decisions D7
and D21; the order is the model's choice (logs 10 and 29). -/
def Obligations.InadmissibleWordAccessFaults : Prop :=
  ∀ (n : Word) (s : State) (load store : Instr) (a : Word),
    (load = .ldl n ∧ store = .stl n ∧ a = wordOffset s.wptr n) ∨
      (load = .ldnl n ∧ store = .stnl n ∧ a = wordOffset s.areg n) →
    (a.toNat % 4 ≠ 0 →
      exec load s = .fault .misalignedAccess ∧ exec store s = .fault .misalignedAccess) ∧
    (a.toNat % 4 = 0 → (∃ k < 4, inRegions s.launch.memMap (a + BitVec.ofNat 32 k) = false) →
      exec load s = .fault .outsideMemMap ∧ exec store s = .fault .outsideMemMap) ∧
    (a.toNat % 4 = 0 → (∀ k < 4, inRegions s.launch.memMap (a + BitVec.ofNat 32 k) = true) →
      (∃ k < 4, inRegions s.launch.reserved (a + BitVec.ofNat 32 k) = true) →
      exec load s = .fault .reservedAddress ∧ exec store s = .fault .reservedAddress)

/-- A word load or store completes only at an aligned, admitted address, and a store only outside the program text.
From spec/20_memory.md sections 3 and 4; spec/92_eei_decisions.md D7, D12, D21. The spec's decisions D7, D12 and D21
(logs 10 and 29). -/
def Obligations.WordInstructionsNeedAdmittedAddresses : Prop :=
  ∀ (n : Word) (s t : State),
    (exec (.ldl n) s = .next t → WordAdmitted s (wordOffset s.wptr n)) ∧
    (exec (.ldnl n) s = .next t → WordAdmitted s (wordOffset s.areg n)) ∧
    (exec (.stl n) s = .next t → WordAdmitted s (wordOffset s.wptr n) ∧ TextFixed s (wordOffset s.wptr n) 4) ∧
    (exec (.stnl n) s = .next t → WordAdmitted s (wordOffset s.areg n) ∧ TextFixed s (wordOffset s.areg n) 4)

/-- stl and stnl into the program text are refused as storeToCode. From spec/20_memory.md section 6;
spec/92_eei_decisions.md D12. The spec's decision D12 (log 29). -/
def Obligations.StoreIntoTheProgramTextIsRefused : Prop :=
  ∀ (n : Word) (s : State),
    (WordAdmitted s (wordOffset s.wptr n) → ¬ TextFixed s (wordOffset s.wptr n) 4 →
      exec (.stl n) s = .refused .storeToCode) ∧
    (WordAdmitted s (wordOffset s.areg n) → ¬ TextFixed s (wordOffset s.areg n) 4 →
      exec (.stnl n) s = .refused .storeToCode)

/-- rot, arot, dup and rev move the three stack registers as Table 4.2 says. Rule R100, R101, R102, R103. -/
def Obligations.StackManipulationTable : Prop :=
  ∀ s : State,
    (∃ t, exec .rot s = .next t ∧ StackIs t s.breg s.creg s.areg ∧ OnlyStackChanged s t) ∧
    (∃ t, exec .arot s = .next t ∧ StackIs t s.creg s.areg s.breg ∧ OnlyStackChanged s t) ∧
    (∃ t, exec .dup s = .next t ∧ StackIs t s.areg s.areg s.breg ∧ OnlyStackChanged s t) ∧
    (∃ t, exec .rev s = .next t ∧ StackIs t s.breg s.areg s.creg ∧ OnlyStackChanged s t)

/-- arot undoes rot, rot undoes arot, and rev undoes itself. From spec/42_stack_manipulation.md;
spec/95_test_vectors.md section 2.5. -/
def Obligations.StackManipulationsCompose : Prop :=
  ∀ s t : State,
    (exec .rot s = .next t → exec .arot t = .next s) ∧
    (exec .arot s = .next t → exec .rot t = .next s) ∧
    (exec .rev s = .next t → exec .rev t = .next s)

/-- add leaves the sum reduced into range, sets overflow or underflow, and rotates the stack. From
spec/43_secondary_named.md section 1; spec/90_conflicts.md C2; spec/92_eei_decisions.md D23, D24. The disputed
writes and the rotation are the spec's decisions D24 and D23 (logs 13 and 14). -/
def Obligations.AddGivesTheCheckedSum : Prop :=
  ∀ s : State, ∃ t, exec .add s = .next t ∧ ∀ sum : Int, sum = s.areg.toInt + s.breg.toInt →
    (2147483647 < sum → t.areg.toInt = sum - 4294967296 ∧ statusBit t.status .overflow = true) ∧
    (sum < -2147483648 → t.areg.toInt = sum + 4294967296 ∧ statusBit t.status .underflow = true) ∧
    (-2147483648 ≤ sum ∧ sum ≤ 2147483647 → t.areg.toInt = sum) ∧
    (sum ≤ 2147483647 → statusBit t.status .overflow = false ∨
      statusBit t.status .overflow = statusBit s.status .overflow) ∧
    (-2147483648 ≤ sum → statusBit t.status .underflow = false ∨
      statusBit t.status .underflow = statusBit s.status .underflow) ∧
    t.breg = s.creg ∧ t.creg = s.areg ∧ OnlyStackAndStatusChanged [.overflow, .underflow] s t ∧
    t.draws = s.draws + 2

/-- and leaves the bitwise AND of Breg and Areg in Areg and rotates the stack. Rule R111. -/
def Obligations.AndIsBitwiseAndRotates : Prop :=
  ∀ s : State, ∃ t, exec .and s = .next t ∧
    (∀ k < 32, t.areg.getLsbD k = (s.breg.getLsbD k && s.areg.getLsbD k)) ∧
    t.breg = s.creg ∧ t.creg = s.areg ∧ OnlyStackChanged s t

/-- mul leaves the product reduced mod 2^32 and sets overflow or underflow. From spec/43_secondary_named.md sections
1 and 5. That mul completes, where its rule has a model refuse it, and changes nothing else is the model's choice
(log 18). The operands are PRESUMED and the unstated values free (log 18). -/
def Obligations.MultiplyGivesTheCheckedProduct : Prop :=
  ∀ s : State, ∃ t, exec .mul s = .next t ∧ ∀ product : Int, product = s.areg.toInt * s.breg.toInt →
    (4294967296 : Int) ∣ t.areg.toInt - product ∧
    (2147483647 < product → statusBit t.status .overflow = true) ∧
    (product < -2147483648 → statusBit t.status .underflow = true) ∧
    (-2147483648 ≤ product ∧ product ≤ 2147483647 → t.areg.toInt = product) ∧
    (product ≤ 2147483647 → statusBit t.status .overflow = false ∨
      statusBit t.status .overflow = statusBit s.status .overflow) ∧
    (-2147483648 ≤ product → statusBit t.status .underflow = false ∨
      statusBit t.status .underflow = statusBit s.status .underflow) ∧
    t.breg = Config.freeWord s.draws ∧ t.creg = Config.freeWord (s.draws + 1) ∧
    OnlyStackAndStatusChanged [.overflow, .underflow] s t ∧ t.draws = s.draws + 2

/-- addc adds the carry in and writes the carry out, set or clear. From spec/43_secondary_named.md section 1;
spec/10_state.md section 2. That addc completes, where its rule has a model refuse it, and changes nothing else is
the model's choice (log 19). The operands and the reading of carry are the model's (log 19). -/
def Obligations.AddWithCarryChainsTheCarry : Prop :=
  ∀ s : State, ∃ t, exec .addc s = .next t ∧
    s.areg.toNat + s.breg.toNat + (statusBit s.status .carry).toNat =
      t.areg.toNat + 4294967296 * (statusBit t.status .carry).toNat ∧
    t.breg = Config.freeWord s.draws ∧ t.creg = Config.freeWord (s.draws + 1) ∧
    OnlyStackAndStatusChanged [.overflow, .underflow, .carry] s t ∧ t.draws = s.draws + 2

/-- subc writes the stack and carry with free values and changes nothing but the arithmetic flags beside. From
spec/43_secondary_named.md section 1; spec/10_state.md section 2. That subc completes, where its rule has a model
refuse it, and changes nothing else is the model's choice (log 20). All the values are unstated, hence free (log
20). -/
def Obligations.SubtractWithCarryWritesItsFreeValues : Prop :=
  ∀ s : State, ∃ t, exec .subc s = .next t ∧
    StackIs t (Config.freeWord s.draws) (Config.freeWord (s.draws + 1)) (Config.freeWord (s.draws + 2)) ∧
    statusBit t.status .carry = Config.freeBit (s.draws + 2) ∧
    OnlyStackAndStatusChanged [.overflow, .underflow, .carry] s t ∧ t.draws = s.draws + 3

/-- swap32 reverses the bytes of Areg, and twice restores it. From spec/43_secondary_named.md section 1. That the
word is Areg is the spec's derivation (log 15). -/
def Obligations.Swap32ReversesTheBytes : Prop :=
  ∀ s : State, ∃ t, exec .swap32 s = .next t ∧
    (∀ k < 4, byteOf t.areg k = byteOf s.areg (3 - k)) ∧ t.breg = s.breg ∧ t.creg = s.creg ∧
    OnlyStackChanged s t ∧ exec .swap32 t = .next s

/-- gajw writes Wptr and the stack with free values and changes nothing else. From spec/43_secondary_named.md
section 1; spec/10_state.md section 1. That gajw completes, where its rule has a model refuse it, and changes
nothing else is the model's choice (log 21). The values are unstated, hence free (log 21). -/
def Obligations.GeneralAdjustWritesWptr : Prop :=
  ∀ s : State, ∃ t, exec .gajw s = .next t ∧ t.wptr = Config.freeWord (s.draws + 3) ∧
    StackIs t (Config.freeWord s.draws) (Config.freeWord (s.draws + 1)) (Config.freeWord (s.draws + 2)) ∧
    t.iptr = s.iptr ∧ t.status = s.status ∧ SystemUnchanged s t ∧ MemoryUnchanged s t ∧
    t.draws = s.draws + 4

/-- io writes IOreg and the stack with free values and changes nothing else. From spec/43_secondary_named.md section
1; spec/10_state.md section 3. That io completes, where its rule has a model refuse it, and changes nothing else is
the model's choice (log 22). The values are unstated, hence free (logs 22 and 31). -/
def Obligations.InputOutputWritesIOreg : Prop :=
  ∀ s : State, ∃ t, exec .io s = .next t ∧
    inputData t.ioreg = inputData (Config.freeWord (s.draws + 3)) ∧
    outputData t.ioreg = outputData (Config.freeWord (s.draws + 4)) ∧
    StackIs t (Config.freeWord s.draws) (Config.freeWord (s.draws + 1)) (Config.freeWord (s.draws + 2)) ∧
    OnlyStackChanged { s with ioreg := t.ioreg } t ∧ t.draws = s.draws + 5

/-- eret restores the seven process state registers saved last and tells the controller when an interrupt handler
ends. From spec/60_exceptions.md section 1; spec/43_secondary_named.md section 2. That eret completes, where its
rule has a model refuse it, and changes nothing else is the model's choice (log 23). Where the state is saved is
lost; the list is the model's (logs 23 and 24). -/
def Obligations.ExceptionReturnRestoresTheProcessState : Prop :=
  ∀ s : State, ∃ t, exec .eret s = .next t ∧
    (∀ c rest, s.saved = c :: rest → HoldsContext t c ∧ t.saved = rest) ∧
    (s.saved = [] → HoldsContext t s.freeContext ∧ t.saved = []) ∧
    (∀ user interrupt trap, user = statusBit s.status .userMode → interrupt = statusBit s.status .interruptMode →
      trap = statusBit s.status .trapMode →
      (user = false ∧ interrupt = true ∧ trap = false → t.controllerSignals = s.controllerSignals + 1) ∧
      ((user = true ∧ interrupt = false ∧ trap = false) ∨ (user = false ∧ trap = true) →
        t.controllerSignals = s.controllerSignals) ∧
      ((user = false ∧ interrupt = false ∧ trap = false) ∨ (user = true ∧ (interrupt = true ∨ trap = true)) →
        t.controllerSignals = s.controllerSignals + (Config.freeBit s.draws).toNat)) ∧
    statusBit t.status .reserved = statusBit s.status .reserved ∧
    t.ioreg = s.ioreg ∧ t.idv = s.idv ∧ t.prefixes = s.prefixes ∧ t.pending = s.pending ∧
    t.launch = s.launch ∧ MemoryUnchanged s t ∧ t.draws = s.draws + 7

/-- mac and umac are refused, their definitions being lost. From spec/43_secondary_named.md section 3;
spec/92_eei_decisions.md D9. The refusal is the spec's decision D9 (log 34). -/
def Obligations.MultiplyAccumulateIsRefused : Prop :=
  ∀ s : State, exec .mac s = .refused (.lostDefinition "mac") ∧
    exec .umac s = .refused (.lostDefinition "umac")

/-- A step takes an exception only between instructions, and an interrupt only with both enables set. From
spec/10_state.md section 2; spec/60_exceptions.md section 1; spec/30_encoding.md section 2. That both bits are
needed is the spec's derivation; the list is the model's (log 25). -/
def Obligations.ExceptionsAreTakenOnlyWhenEnabled : Prop :=
  ∀ s t : State, step s = .next t → t.pending ≠ s.pending →
    s.prefixes = 0 ∧ ∃ kind, s.pending = kind :: t.pending ∧
      (kind = .interrupt → statusBit s.status .globalInterruptEnable = true ∧
        statusBit s.status .localInterruptEnable = true) ∧
      (kind = .timesliceTrap → statusBit s.status .timesliceEnable = true)

/-- Taking an exception saves the process state, sets the mode bits of the handler, and leaves IOreg and memory
alone. From spec/60_exceptions.md section 1. How exceptions arrive and where the state is saved is the model's (logs
24 and 25). -/
def Obligations.ExceptionEntrySavesAndSetsTheModes : Prop :=
  ∀ (s : State) (kind : ExceptionKind) (rest : List ExceptionKind),
    s.prefixes = 0 → NotEnded s → NoSchedule s → s.pending = kind :: rest → canTake s.status kind = true →
    ∃ t, step s = .next t ∧ t.saved = s.context :: s.saved ∧ t.pending = rest ∧
      statusBit t.status .userMode = false ∧
      statusBit t.status .reserved = statusBit s.status .reserved ∧
      (kind = .interrupt → statusBit t.status .interruptMode = true ∧ statusBit t.status .trapMode = false) ∧
      (kind = .timesliceTrap → statusBit t.status .trapMode = true ∧
        statusBit t.status .interruptMode = statusBit s.status .interruptMode) ∧
      t.ioreg = s.ioreg ∧ t.idv = s.idv ∧ t.prefixes = s.prefixes ∧ t.launch = s.launch ∧
      t.controllerSignals = s.controllerSignals ∧ MemoryUnchanged s t ∧
      t.draws = s.draws + 7

/-- The code an exception interrupts gets its seven registers back from eret, and the handler's IOreg. From
spec/10_state.md sections 1 and 4; spec/60_exceptions.md section 1. That eret completes, where rule R148 has a model
refuse it, and restores the head of the list is the model's choice (log 23); the list of saved states is the model's
(log 24). -/
def Obligations.ExceptionsPreserveTheProcessState : Prop :=
  ∀ (kind : ExceptionKind) (s h : State), h.saved = (takeException kind s).saved →
    ∃ t, exec .eret h = .next t ∧ StackIs t s.areg s.breg s.creg ∧ t.iptr = s.iptr ∧ t.wptr = s.wptr ∧
      t.tdesc = s.tdesc ∧ StatusUnchangedBut [.reserved] s t ∧ t.saved = s.saved ∧
      t.ioreg = h.ioreg ∧ MemoryUnchanged h t

/-- Completing does not depend on the mode bits, and an unconditional instruction always completes, six of them by
the model's choice. From spec/60_exceptions.md section 2; spec/41_primary.md The rules;
spec/42_stack_manipulation.md; spec/43_secondary_named.md sections 1 and 2; spec/92_eei_decisions.md D9. That mul,
addc, subc, gajw, io and eret complete, where their rules have a model refuse them, is the model's choice (logs 18
to 23). -/
def Obligations.CompletingIsIndependentOfTheMode : Prop :=
  ∀ (i : Instr) (s : State) (user interrupt trap : Bool),
    (i.unconditional = true → Completes i s) ∧
    (Completes i s ↔ Completes i (s.setStatus
      (setStatusBit (setStatusBit (setStatusBit s.status .userMode user) .interruptMode interrupt) .trapMode trap)))

/-- Only addc and subc manipulate the carry bit, beside an exception return, which restores Status. From
spec/10_state.md section 2. -/
def Obligations.CarryIsWrittenByLongArithmeticOnly : Prop :=
  ∀ (i : Instr) (s t : State), exec i s = .next t →
    statusBit t.status .carry ≠ statusBit s.status .carry →
    i = .addc ∨ i = .subc ∨ i = .eret ∨
      ∃ n, i = .opr n ∧ (operationOf s.launch n = some .addc ∨ operationOf s.launch n = some .subc ∨
        operationOf s.launch n = some .eret)

/-- Loads and stores do not move Wptr: only ajw, gajw and an exception return write it. From spec/10_state.md
section 1. -/
def Obligations.WptrIsMovedByItsInstructionsOnly : Prop :=
  ∀ (i : Instr) (s t : State), exec i s = .next t → t.wptr ≠ s.wptr →
    (∃ n, i = .ajw n) ∨ i = .gajw ∨ i = .eret ∨
      ∃ n, i = .opr n ∧ (operationOf s.launch n = some .gajw ∨ operationOf s.launch n = some .eret)

/-- Only io writes IOreg, and only an exception return writes Tdesc. From spec/10_state.md sections 1 and 3;
spec/60_exceptions.md section 1. -/
def Obligations.TdescAndIOregHaveTheirWriters : Prop :=
  ∀ (i : Instr) (s t : State), exec i s = .next t →
    (t.ioreg ≠ s.ioreg → i = .io ∨ ∃ n, i = .opr n ∧ operationOf s.launch n = some .io) ∧
    (t.tdesc ≠ s.tdesc → i = .eret ∨ ∃ n, i = .opr n ∧ operationOf s.launch n = some .eret)

/-- Only stl and stnl change a byte of memory, and only in the word they store. From spec/00_scope.md section 5.2;
spec/20_memory.md section 5. -/
def Obligations.MemoryIsWrittenByStoresOnly : Prop :=
  ∀ (i : Instr) (s t : State) (a : Word), exec i s = .next t →
    Memory.byte t.mem a ≠ Memory.byte s.mem a →
    (∃ n, i = .stl n ∧ ∃ k < 4, a = wordOffset s.wptr n + BitVec.ofNat 32 k) ∨
    (∃ n, i = .stnl n ∧ ∃ k < 4, a = wordOffset s.areg n + BitVec.ofNat 32 k)

/-- The instruction data value is zero after every step that is no prefix. From spec/30_encoding.md section 2. -/
def Obligations.DataValueIsClearBetweenInstructions : Prop :=
  ∀ s t : State, Quiet s → step s = .next t →
    (fetchedInstr s).isPrefixing = false → IdvZero t

/-- The byte, half-word and word views of memory agree, least significant byte at the lowest address. Rule R34. -/
def Obligations.MemoryViewsAreLittleEndian : Prop :=
  ∀ (m : Memory) (a v : Word) (n : Nat), n = 1 ∨ n = 2 ∨ n = 4 →
    (Memory.read m a n).toNat =
      ((List.range n).map (fun k => (Memory.byte m (a + BitVec.ofNat 32 k)).toNat * 256 ^ k)).sum ∧
    (∀ k < n, Memory.byte (Memory.write m a n v) (a + BitVec.ofNat 32 k) = byteOf v k) ∧
    (∀ b : Word, (∀ k < n, b ≠ a + BitVec.ofNat 32 k) →
      Memory.byte (Memory.write m a n v) b = Memory.byte m b)

/-- A word reads back as written, and a byte written into it replaces that byte alone. From spec/20_memory.md
section 2. -/
def Obligations.WordReadsBackAsWritten : Prop :=
  ∀ (m : Memory) (a v : Word) (b : Byte), Memory.read (Memory.write m a 4 v) a 4 = v ∧
    ∀ k < 4, ∀ j < 4,
      byteOf (Memory.read (Memory.setByte (Memory.write m a 4 v) (a + BitVec.ofNat 32 k) b) a 4) j =
        if j = k then b else byteOf v j

/-- base @ x is x words, four bytes each, from base modulo 2^32. Rule R37. -/
def Obligations.WordOffsetIsFourBytes : Prop :=
  ∀ base x : Word, ((wordOffset base x).toNat : Int) = ((base.toNat : Int) + 4 * x.toInt) % 4294967296

/-- A word offset keeps the byte selector of its base, so an aligned base gives an aligned address. Rule R38. -/
def Obligations.WordOffsetKeepsTheAlignment : Prop :=
  ∀ base x : Word, byteSelector (wordOffset base x) = byteSelector base ∧
    (aligned base 4 = true → aligned (wordOffset base x) 4 = true)

/-- Sign extension of a byte and of a half word copies the sign bit into the new bits. Rule R122. -/
def Obligations.SignExtensionCopiesTheSignBit : Prop :=
  ∀ (b : Byte) (h : BitVec 16) (k : Nat), k < 32 →
    (signExtendByte b).getLsbD k = (if k < 8 then b.getLsbD k else b.getLsbD 7) ∧
    (signExtendSixteen h).getLsbD k = (if k < 16 then h.getLsbD k else h.getLsbD 15)

/-- The step stops at EndAddr, when sleep or the scheduler is due, and while timeslicing is on, in that order. From
spec/60_exceptions.md section 3; spec/70_reset_and_hazards.md section 2; spec/92_eei_decisions.md D17, D26. The
stops and their order are the model's choices under the spec's decisions D17 and D26 (logs 26, 27 and 28). -/
def Obligations.StepStopsInPlaceOfAnInstruction : Prop :=
  ∀ s : State,
    (s.prefixes = 0 → s.launch.endAddr = some s.iptr → step s = .refused .endOfRun) ∧
    (s.prefixes = 0 → NotEnded s → statusBit s.status .sleep = true → step s = .refused .sleepState) ∧
    (s.prefixes = 0 → NotEnded s → statusBit s.status .sleep = false → statusBit s.status .startNextTask = true →
      step s = .refused .processSwitch) ∧
    ((s.prefixes = 0 → NotEnded s ∧ NoSchedule s ∧ ∀ kind, s.pending.head? = some kind → canTake s.status kind = false) →
      statusBit s.status .timesliceEnable = true → step s = .refused .timeslicing)

/-- No step writes the reserved bit of Status, and beside eret only arithmetic writes overflow, underflow and carry,
and no other bit. From spec/10_state.md section 2; spec/92_eei_decisions.md D18. Bit 23 is the spec's decision D18
(log 30); that adc, addc and subc leave the flags free is logs 12, 19 and 20. -/
def Obligations.StatusBitsHaveTheirWriters : Prop :=
  (∀ s t : State, step s = .next t → statusBit t.status .reserved = statusBit s.status .reserved) ∧
  ∀ (i : Instr) (s t : State), exec i s = .next t → ¬ ExecutesAs i s .eret →
    StatusUnchangedBut [.overflow, .underflow, .carry] s t ∧
    (statusBit t.status .overflow ≠ statusBit s.status .overflow ∨
        statusBit t.status .underflow ≠ statusBit s.status .underflow →
      (∃ n, i = .adc n) ∨ ExecutesAs i s .add ∨ ExecutesAs i s .mul ∨ ExecutesAs i s .addc ∨ ExecutesAs i s .subc)

/-- No step lowers the count of free values used. From spec/00_scope.md section 5.2; spec/92_eei_decisions.md D8.
The count is the model's own field (log 11); that a value used is counted is said by the exact counts of the
statements of each instruction and of exception entry, and not here. -/
def Obligations.CountOfFreeValuesNeverFalls : Prop :=
  ∀ s t : State, step s = .next t → s.draws ≤ t.draws
end

