-- ==== Sys2Proof/Laws/Encoding.lean ====
section
/-! SUPPORT. The function codes under a table: each function is read back from its code, and the two codes the spec fixes are
those of `adc` and `opr` (spec/30_encoding.md R51, R59). -/

namespace Sys2Proof

theorem mem_allFunctions (f : Func) : f ∈ allFunctions := by cases f <;> decide

/-- The default table is a bijection (R59). -/
theorem defaultFnTable_wf : defaultFnTable.wf := by decide

/-- Two functions of a table that is a bijection have different codes. -/
theorem fnCode_inj {t : FnTable} (h : t.wf) {f g : Func} (e : fnCode t f = fnCode t g) : f = g :=
  List.inj_on_of_nodup_map h (mem_allFunctions f) (mem_allFunctions g) e

/-- A function is read back from its code. -/
theorem functionOfCode_fnCode {t : FnTable} (h : t.wf) (f : Func) : functionOfCode t (fnCode t f) = f := by
  unfold functionOfCode
  cases hf : allFunctions.find? (fun g => fnCode t g == fnCode t f) with
  | none => exact absurd (List.find?_eq_none.1 hf f (mem_allFunctions f)) (by simp)
  | some g =>
    have : fnCode t g = fnCode t f := by simpa using List.find?_some hf
    exact fnCode_inj h this

/-- A component gives its function and its data back (R50). -/
theorem componentFunction_component {t : FnTable} (h : t.wf) (f : Func) (d : Nibble) :
    componentFunction t (component t f d) = f := by
  have e : (component t f d).extractLsb' 4 4 = fnCode t f := by
    unfold component
    apply BitVec.eq_of_getLsbD_eq
    intro i hi
    rw [BitVec.getLsbD_extractLsb', BitVec.getLsbD_append]
    simp [hi]
  rw [componentFunction, e, functionOfCode_fnCode h]

theorem componentData_component (t : FnTable) (f : Func) (d : Nibble) : componentData (component t f d) = d := by
  unfold componentData component
  apply BitVec.eq_of_getLsbD_eq
  intro i hi
  rw [BitVec.getLsbD_extractLsb', BitVec.getLsbD_append]
  simp [hi]

end Sys2Proof
end

