-- ==== Sys2Proof/Laws/Memory.lean ====
section
/-! SUPPORT. Memory: a read after a write, and that every memory operation keeps the canonical form. -/

namespace Sys2Proof.Machine

/-! ## One listed byte -/

@[simp] theorem Memory.get?_nil (a : Nat) : Memory.get? [] a = none := rfl

@[simp] theorem Memory.get?_set_self (m : Memory) (a : Nat) (v : Byte) :
    Memory.get? (Memory.set m a v) a = some v := by
  induction m with
  | nil => simp [Memory.set, Memory.get?]
  | cons c m ih =>
    obtain ⟨k, b⟩ := c
    simp only [Memory.set]
    split_ifs with h1 h2
    · simp [Memory.get?]
    · simp [Memory.get?]
    · have : k ≠ a := fun h => h2 h.symm
      simp [Memory.get?, this, ih]

theorem Memory.get?_set_of_ne (m : Memory) {a c : Nat} (v : Byte) (h : c ≠ a) :
    Memory.get? (Memory.set m a v) c = Memory.get? m c := by
  induction m with
  | nil => simp [Memory.set, Memory.get?, Ne.symm h]
  | cons p m ih =>
    obtain ⟨k, b⟩ := p
    simp only [Memory.set]
    split_ifs with h1 h2
    · simp [Memory.get?, Ne.symm h]
    · subst h2
      simp [Memory.get?, Ne.symm h]
    · simp [Memory.get?, ih]

/-- Reading the byte just written. -/
@[simp] theorem Memory.byte_setByte_self (m : Memory) (a : Word) (v : Byte) :
    Memory.byte (Memory.setByte m a v) a = v := by
  simp [Memory.byte, Memory.setByte]

/-- Writing a byte leaves every other address alone. -/
theorem Memory.byte_setByte_of_ne (m : Memory) {a c : Word} (v : Byte) (h : c ≠ a) :
    Memory.byte (Memory.setByte m a v) c = Memory.byte m c := by
  have h' : c.toNat ≠ a.toNat := fun e => h (BitVec.eq_of_toNat_eq e)
  simp [Memory.byte, Memory.setByte, Memory.get?_set_of_ne m v h']

/-- Reading a byte after writing one. -/
theorem Memory.byte_setByte (m : Memory) (a c : Word) (v : Byte) :
    Memory.byte (Memory.setByte m a v) c = if c = a then v else Memory.byte m c := by
  split_ifs with h
  · rw [h, Memory.byte_setByte_self]
  · exact Memory.byte_setByte_of_ne m v h

@[simp] theorem Memory.read_zero (m : Memory) (a : Word) : Memory.read m a 0 = 0#32 := rfl

theorem Memory.read_succ (m : Memory) (a : Word) (n : Nat) :
    Memory.read m a (n + 1) = (Memory.byte m a).setWidth 32 ||| (Memory.read m (a + 1#32) n <<< 8) := rfl

@[simp] theorem Memory.write_zero (m : Memory) (a v : Word) : Memory.write m a 0 v = m := rfl

theorem Memory.write_succ (m : Memory) (a : Word) (n : Nat) (v : Word) :
    Memory.write m a (n + 1) v =
      Memory.write (Memory.setByte m a (byteOf v 0)) (a + 1#32) n (v >>> 8) := rfl

/-! ## The canonical form -/

theorem Memory.wf_nil : Memory.wf [] := ⟨List.Pairwise.nil, by simp⟩

/-- The entries after listing a byte: that byte and the entries there were. -/
theorem Memory.mem_set {m : Memory} {a : Nat} {v : Byte} {c : Host.Cell} (h : c ∈ Memory.set m a v) :
    c = (a, v) ∨ c ∈ m := by
  induction m with
  | nil => simpa [Memory.set] using h
  | cons p m ih =>
    obtain ⟨k, b⟩ := p
    simp only [Memory.set] at h
    split_ifs at h with h1 h2
    · simpa using h
    · simp only [List.mem_cons] at h ⊢
      tauto
    · simp only [List.mem_cons] at h ⊢
      rcases h with h | h
      · exact .inr (.inl h)
      · rcases ih h with h | h
        · exact .inl h
        · exact .inr (.inr h)

theorem Memory.wf_set {m : Memory} (h : Memory.wf m) {a : Nat} (ha : a < 4294967296) (v : Byte) :
    Memory.wf (Memory.set m a v) := by
  refine ⟨?_, fun c hc => ?_⟩
  · have hp := h.1
    clear h
    induction m with
    | nil => simp [Memory.set]
    | cons p m ih =>
      obtain ⟨k, b⟩ := p
      obtain ⟨hk, hm⟩ := List.pairwise_cons.1 hp
      simp only [Memory.set]
      split_ifs with h1 h2
      · refine List.pairwise_cons.2 ⟨fun c hc => ?_, hp⟩
        rcases List.mem_cons.1 hc with rfl | hc
        · exact h1
        · exact lt_trans h1 (hk c hc)
      · subst h2
        exact List.pairwise_cons.2 ⟨hk, hm⟩
      · refine List.pairwise_cons.2 ⟨fun c hc => ?_, ih hm⟩
        rcases Memory.mem_set hc with rfl | hc
        · have : a ≠ k := h2
          show k < a
          omega
        · exact hk c hc
  · rcases Memory.mem_set hc with rfl | hc
    · exact ha
    · exact h.2 c hc

theorem Memory.wf_setByte {m : Memory} (h : Memory.wf m) (a : Word) (v : Byte) :
    Memory.wf (Memory.setByte m a v) := Memory.wf_set h a.isLt v

theorem Memory.wf_write {m : Memory} (h : Memory.wf m) (a : Word) (n : Nat) (v : Word) :
    Memory.wf (Memory.write m a n v) := by
  induction n generalizing m a v with
  | zero => exact h
  | succ n ih => exact ih (Memory.wf_setByte h a _) _ _

/-- Memory right after reset has the canonical form. -/
theorem Memory.wf_reset : Memory.wf State.reset.mem := Memory.wf_nil

end Sys2Proof.Machine
end

