-- ==== Sys2Proof/Laws/Operands.lean ====
section
/-! SUPPORT. The value functions, byte by byte and half by half. -/

namespace Sys2Proof.Machine

/-- A byte of a word as a number: its base-256 digit. -/
theorem toNat_byteOf (v : Word) (k : Nat) : (byteOf v k).toNat = v.toNat / 256 ^ k % 256 := by
  unfold byteOf
  rw [BitVec.extractLsb'_toNat, Nat.shiftRight_eq_div_pow, pow_mul]
  norm_num

/-- The bytes of a word shifted down by one byte. -/
theorem byteOf_shiftRight (v : Word) (k : Nat) : byteOf (v >>> 8) k = byteOf v (k + 1) := by
  apply BitVec.eq_of_toNat_eq
  rw [toNat_byteOf, toNat_byteOf, BitVec.toNat_ushiftRight, Nat.shiftRight_eq_div_pow,
    Nat.div_div_eq_div_mul, pow_succ' 256 k]

/-- A word is its four bytes. -/
theorem eq_of_byteOf_eq {x y : Word} (h : ∀ k < 4, byteOf x k = byteOf y k) : x = y := by
  have digits : ∀ k < 4, x.toNat / 256 ^ k % 256 = y.toNat / 256 ^ k % 256 := fun k hk => by
    rw [← toNat_byteOf, ← toNat_byteOf, h k hk]
  have h0 := digits 0 (by omega)
  have h1 := digits 1 (by omega)
  have h2 := digits 2 (by omega)
  have h3 := digits 3 (by omega)
  have hx := x.isLt
  have hy := y.isLt
  norm_num at h0 h1 h2 h3
  exact BitVec.eq_of_toNat_eq (by omega)

/-- The word of four bytes, as a number. -/
theorem toNat_swapBytes (v : Word) :
    (swapBytes v).toNat = (byteOf v 3).toNat + 256 * ((byteOf v 2).toNat + 256 *
      ((byteOf v 1).toNat + 256 * (byteOf v 0).toNat)) := by
  have h (w : Nat) (x : BitVec w) (y : Byte) : (x ++ y).toNat = y.toNat + 256 * x.toNat := by
    rw [BitVec.toNat_append, ← Nat.shiftLeft_add_eq_or_of_lt y.isLt, Nat.shiftLeft_eq]
    omega
  show (byteOf v 0 ++ byteOf v 1 ++ byteOf v 2 ++ byteOf v 3 : BitVec (8 + 8 + 8 + 8)).toNat = _
  rw [h, h, h]

/-- IOreg from its halves, read back by halves (R26). -/
theorem toNat_ioWord (input output : BitVec 16) :
    (ioWord input output).toNat = output.toNat + 65536 * input.toNat := by
  show (input ++ output : BitVec (16 + 16)).toNat = _
  rw [BitVec.toNat_append, ← Nat.shiftLeft_add_eq_or_of_lt output.isLt, Nat.shiftLeft_eq]
  omega

@[simp] theorem outputData_ioWord (input output : BitVec 16) : outputData (ioWord input output) = output := by
  apply BitVec.eq_of_toNat_eq
  have := output.isLt
  rw [outputData, BitVec.extractLsb'_toNat, toNat_ioWord]
  simp only [Nat.shiftRight_zero]
  omega

@[simp] theorem inputData_ioWord (input output : BitVec 16) : inputData (ioWord input output) = input := by
  apply BitVec.eq_of_toNat_eq
  have := output.isLt
  have := input.isLt
  rw [inputData, BitVec.extractLsb'_toNat, toNat_ioWord, Nat.shiftRight_eq_div_pow]
  omega

end Sys2Proof.Machine
end

