-- ==== Sys2Proof/Laws/Operate.lean ====
section
/-! SUPPORT. What `opr` is: the secondary instruction its operation code selects, or a refusal. -/

namespace Sys2Proof.Machine

/-- Executing a selected secondary instruction is executing that instruction. -/
theorem execOperation_of_secondary {i : Instr} (h : i.isSecondary = true) (n : Word) (s : State) :
    execOperation n i s = exec i s := by
  cases i <;> first | rfl | cases h

/-- A row of the table that names no secondary instruction is no row. -/
theorem execOperation_of_other {i : Instr} (h : i.isSecondary = false) (n : Word) (s : State) :
    execOperation n i s = .refused (.unknownOperation n) := by
  cases i <;> first | rfl | cases h

/-- `opr` has a next state only where it is that of a secondary instruction (R57, R72). -/
theorem execOpr_next {n : Word} {s t : State} (h : exec (.opr n) s = .next t) :
    ∃ i, operationOf s.launch n = some i ∧ i.isSecondary = true ∧
      (i.lostOperation = false ∨ s.launch.runLost = true) ∧ exec i s = .next t := by
  simp only [exec, execOpr] at h
  cases ho : operationOf s.launch n with
  | none => rw [ho] at h; cases h
  | some i =>
    rw [ho] at h
    dsimp only at h
    split_ifs at h with hl
    cases hs : i.isSecondary
    · simp only [execOperation_of_other hs] at h; cases h
    · refine ⟨i, rfl, hs, ?_, (execOperation_of_secondary hs n s) ▸ h⟩
      cases h1 : i.lostOperation
      · exact .inl rfl
      · exact .inr (by simpa [h1] using hl)

end Sys2Proof.Machine
end

