-- ==== Sys2Proof/Laws/State.lean ====
section
/-! SUPPORT. For each update of State, what each field holds after it: one lemma per field per update, true by rfl, so that
no later proof unfolds a record update. -/

namespace Sys2Proof.Machine

variable (s : State)

/-! ## State.push -/

@[simp] theorem State.push_areg (v : Word) : (s.push v).areg = v := rfl
@[simp] theorem State.push_breg (v : Word) : (s.push v).breg = s.areg := rfl
@[simp] theorem State.push_creg (v : Word) : (s.push v).creg = s.breg := rfl
@[simp] theorem State.push_iptr (v : Word) : (s.push v).iptr = s.iptr := rfl
@[simp] theorem State.push_status (v : Word) : (s.push v).status = s.status := rfl
@[simp] theorem State.push_wptr (v : Word) : (s.push v).wptr = s.wptr := rfl
@[simp] theorem State.push_tdesc (v : Word) : (s.push v).tdesc = s.tdesc := rfl
@[simp] theorem State.push_ioreg (v : Word) : (s.push v).ioreg = s.ioreg := rfl
@[simp] theorem State.push_idv (v : Word) : (s.push v).idv = s.idv := rfl
@[simp] theorem State.push_prefixes (v : Word) : (s.push v).prefixes = s.prefixes := rfl
@[simp] theorem State.push_mem (v : Word) : (s.push v).mem = s.mem := rfl
@[simp] theorem State.push_saved (v : Word) : (s.push v).saved = s.saved := rfl
@[simp] theorem State.push_pending (v : Word) : (s.push v).pending = s.pending := rfl
@[simp] theorem State.push_controllerSignals (v : Word) : (s.push v).controllerSignals = s.controllerSignals := rfl
@[simp] theorem State.push_launch (v : Word) : (s.push v).launch = s.launch := rfl
@[simp] theorem State.push_draws (v : Word) : (s.push v).draws = s.draws := rfl

/-! ## State.setStack -/

@[simp] theorem State.setStack_areg (a b c : Word) : (s.setStack a b c).areg = a := rfl
@[simp] theorem State.setStack_breg (a b c : Word) : (s.setStack a b c).breg = b := rfl
@[simp] theorem State.setStack_creg (a b c : Word) : (s.setStack a b c).creg = c := rfl
@[simp] theorem State.setStack_iptr (a b c : Word) : (s.setStack a b c).iptr = s.iptr := rfl
@[simp] theorem State.setStack_status (a b c : Word) : (s.setStack a b c).status = s.status := rfl
@[simp] theorem State.setStack_wptr (a b c : Word) : (s.setStack a b c).wptr = s.wptr := rfl
@[simp] theorem State.setStack_tdesc (a b c : Word) : (s.setStack a b c).tdesc = s.tdesc := rfl
@[simp] theorem State.setStack_ioreg (a b c : Word) : (s.setStack a b c).ioreg = s.ioreg := rfl
@[simp] theorem State.setStack_idv (a b c : Word) : (s.setStack a b c).idv = s.idv := rfl
@[simp] theorem State.setStack_prefixes (a b c : Word) : (s.setStack a b c).prefixes = s.prefixes := rfl
@[simp] theorem State.setStack_mem (a b c : Word) : (s.setStack a b c).mem = s.mem := rfl
@[simp] theorem State.setStack_saved (a b c : Word) : (s.setStack a b c).saved = s.saved := rfl
@[simp] theorem State.setStack_pending (a b c : Word) : (s.setStack a b c).pending = s.pending := rfl
@[simp] theorem State.setStack_controllerSignals (a b c : Word) : (s.setStack a b c).controllerSignals = s.controllerSignals := rfl
@[simp] theorem State.setStack_launch (a b c : Word) : (s.setStack a b c).launch = s.launch := rfl
@[simp] theorem State.setStack_draws (a b c : Word) : (s.setStack a b c).draws = s.draws := rfl

/-! ## State.popLeaving -/

@[simp] theorem State.popLeaving_areg (c : Word) : (s.popLeaving c).areg = s.breg := rfl
@[simp] theorem State.popLeaving_breg (c : Word) : (s.popLeaving c).breg = s.creg := rfl
@[simp] theorem State.popLeaving_creg (c : Word) : (s.popLeaving c).creg = c := rfl
@[simp] theorem State.popLeaving_iptr (c : Word) : (s.popLeaving c).iptr = s.iptr := rfl
@[simp] theorem State.popLeaving_status (c : Word) : (s.popLeaving c).status = s.status := rfl
@[simp] theorem State.popLeaving_wptr (c : Word) : (s.popLeaving c).wptr = s.wptr := rfl
@[simp] theorem State.popLeaving_tdesc (c : Word) : (s.popLeaving c).tdesc = s.tdesc := rfl
@[simp] theorem State.popLeaving_ioreg (c : Word) : (s.popLeaving c).ioreg = s.ioreg := rfl
@[simp] theorem State.popLeaving_idv (c : Word) : (s.popLeaving c).idv = s.idv := rfl
@[simp] theorem State.popLeaving_prefixes (c : Word) : (s.popLeaving c).prefixes = s.prefixes := rfl
@[simp] theorem State.popLeaving_mem (c : Word) : (s.popLeaving c).mem = s.mem := rfl
@[simp] theorem State.popLeaving_saved (c : Word) : (s.popLeaving c).saved = s.saved := rfl
@[simp] theorem State.popLeaving_pending (c : Word) : (s.popLeaving c).pending = s.pending := rfl
@[simp] theorem State.popLeaving_controllerSignals (c : Word) : (s.popLeaving c).controllerSignals = s.controllerSignals := rfl
@[simp] theorem State.popLeaving_launch (c : Word) : (s.popLeaving c).launch = s.launch := rfl
@[simp] theorem State.popLeaving_draws (c : Word) : (s.popLeaving c).draws = s.draws := rfl

/-! ## State.setA -/

@[simp] theorem State.setA_areg (v : Word) : (s.setA v).areg = v := rfl
@[simp] theorem State.setA_breg (v : Word) : (s.setA v).breg = s.breg := rfl
@[simp] theorem State.setA_creg (v : Word) : (s.setA v).creg = s.creg := rfl
@[simp] theorem State.setA_iptr (v : Word) : (s.setA v).iptr = s.iptr := rfl
@[simp] theorem State.setA_status (v : Word) : (s.setA v).status = s.status := rfl
@[simp] theorem State.setA_wptr (v : Word) : (s.setA v).wptr = s.wptr := rfl
@[simp] theorem State.setA_tdesc (v : Word) : (s.setA v).tdesc = s.tdesc := rfl
@[simp] theorem State.setA_ioreg (v : Word) : (s.setA v).ioreg = s.ioreg := rfl
@[simp] theorem State.setA_idv (v : Word) : (s.setA v).idv = s.idv := rfl
@[simp] theorem State.setA_prefixes (v : Word) : (s.setA v).prefixes = s.prefixes := rfl
@[simp] theorem State.setA_mem (v : Word) : (s.setA v).mem = s.mem := rfl
@[simp] theorem State.setA_saved (v : Word) : (s.setA v).saved = s.saved := rfl
@[simp] theorem State.setA_pending (v : Word) : (s.setA v).pending = s.pending := rfl
@[simp] theorem State.setA_controllerSignals (v : Word) : (s.setA v).controllerSignals = s.controllerSignals := rfl
@[simp] theorem State.setA_launch (v : Word) : (s.setA v).launch = s.launch := rfl
@[simp] theorem State.setA_draws (v : Word) : (s.setA v).draws = s.draws := rfl

/-! ## State.setIptr -/

@[simp] theorem State.setIptr_areg (v : Word) : (s.setIptr v).areg = s.areg := rfl
@[simp] theorem State.setIptr_breg (v : Word) : (s.setIptr v).breg = s.breg := rfl
@[simp] theorem State.setIptr_creg (v : Word) : (s.setIptr v).creg = s.creg := rfl
@[simp] theorem State.setIptr_iptr (v : Word) : (s.setIptr v).iptr = v := rfl
@[simp] theorem State.setIptr_status (v : Word) : (s.setIptr v).status = s.status := rfl
@[simp] theorem State.setIptr_wptr (v : Word) : (s.setIptr v).wptr = s.wptr := rfl
@[simp] theorem State.setIptr_tdesc (v : Word) : (s.setIptr v).tdesc = s.tdesc := rfl
@[simp] theorem State.setIptr_ioreg (v : Word) : (s.setIptr v).ioreg = s.ioreg := rfl
@[simp] theorem State.setIptr_idv (v : Word) : (s.setIptr v).idv = s.idv := rfl
@[simp] theorem State.setIptr_prefixes (v : Word) : (s.setIptr v).prefixes = s.prefixes := rfl
@[simp] theorem State.setIptr_mem (v : Word) : (s.setIptr v).mem = s.mem := rfl
@[simp] theorem State.setIptr_saved (v : Word) : (s.setIptr v).saved = s.saved := rfl
@[simp] theorem State.setIptr_pending (v : Word) : (s.setIptr v).pending = s.pending := rfl
@[simp] theorem State.setIptr_controllerSignals (v : Word) : (s.setIptr v).controllerSignals = s.controllerSignals := rfl
@[simp] theorem State.setIptr_launch (v : Word) : (s.setIptr v).launch = s.launch := rfl
@[simp] theorem State.setIptr_draws (v : Word) : (s.setIptr v).draws = s.draws := rfl

/-! ## State.setWptr -/

@[simp] theorem State.setWptr_areg (v : Word) : (s.setWptr v).areg = s.areg := rfl
@[simp] theorem State.setWptr_breg (v : Word) : (s.setWptr v).breg = s.breg := rfl
@[simp] theorem State.setWptr_creg (v : Word) : (s.setWptr v).creg = s.creg := rfl
@[simp] theorem State.setWptr_iptr (v : Word) : (s.setWptr v).iptr = s.iptr := rfl
@[simp] theorem State.setWptr_status (v : Word) : (s.setWptr v).status = s.status := rfl
@[simp] theorem State.setWptr_wptr (v : Word) : (s.setWptr v).wptr = v := rfl
@[simp] theorem State.setWptr_tdesc (v : Word) : (s.setWptr v).tdesc = s.tdesc := rfl
@[simp] theorem State.setWptr_ioreg (v : Word) : (s.setWptr v).ioreg = s.ioreg := rfl
@[simp] theorem State.setWptr_idv (v : Word) : (s.setWptr v).idv = s.idv := rfl
@[simp] theorem State.setWptr_prefixes (v : Word) : (s.setWptr v).prefixes = s.prefixes := rfl
@[simp] theorem State.setWptr_mem (v : Word) : (s.setWptr v).mem = s.mem := rfl
@[simp] theorem State.setWptr_saved (v : Word) : (s.setWptr v).saved = s.saved := rfl
@[simp] theorem State.setWptr_pending (v : Word) : (s.setWptr v).pending = s.pending := rfl
@[simp] theorem State.setWptr_controllerSignals (v : Word) : (s.setWptr v).controllerSignals = s.controllerSignals := rfl
@[simp] theorem State.setWptr_launch (v : Word) : (s.setWptr v).launch = s.launch := rfl
@[simp] theorem State.setWptr_draws (v : Word) : (s.setWptr v).draws = s.draws := rfl

/-! ## State.setStatus -/

@[simp] theorem State.setStatus_areg (v : Word) : (s.setStatus v).areg = s.areg := rfl
@[simp] theorem State.setStatus_breg (v : Word) : (s.setStatus v).breg = s.breg := rfl
@[simp] theorem State.setStatus_creg (v : Word) : (s.setStatus v).creg = s.creg := rfl
@[simp] theorem State.setStatus_iptr (v : Word) : (s.setStatus v).iptr = s.iptr := rfl
@[simp] theorem State.setStatus_status (v : Word) : (s.setStatus v).status = v := rfl
@[simp] theorem State.setStatus_wptr (v : Word) : (s.setStatus v).wptr = s.wptr := rfl
@[simp] theorem State.setStatus_tdesc (v : Word) : (s.setStatus v).tdesc = s.tdesc := rfl
@[simp] theorem State.setStatus_ioreg (v : Word) : (s.setStatus v).ioreg = s.ioreg := rfl
@[simp] theorem State.setStatus_idv (v : Word) : (s.setStatus v).idv = s.idv := rfl
@[simp] theorem State.setStatus_prefixes (v : Word) : (s.setStatus v).prefixes = s.prefixes := rfl
@[simp] theorem State.setStatus_mem (v : Word) : (s.setStatus v).mem = s.mem := rfl
@[simp] theorem State.setStatus_saved (v : Word) : (s.setStatus v).saved = s.saved := rfl
@[simp] theorem State.setStatus_pending (v : Word) : (s.setStatus v).pending = s.pending := rfl
@[simp] theorem State.setStatus_controllerSignals (v : Word) : (s.setStatus v).controllerSignals = s.controllerSignals := rfl
@[simp] theorem State.setStatus_launch (v : Word) : (s.setStatus v).launch = s.launch := rfl
@[simp] theorem State.setStatus_draws (v : Word) : (s.setStatus v).draws = s.draws := rfl

/-! ## State.jumpBy -/

@[simp] theorem State.jumpBy_areg (n : Word) : (s.jumpBy n).areg = s.areg := rfl
@[simp] theorem State.jumpBy_breg (n : Word) : (s.jumpBy n).breg = s.breg := rfl
@[simp] theorem State.jumpBy_creg (n : Word) : (s.jumpBy n).creg = s.creg := rfl
@[simp] theorem State.jumpBy_iptr (n : Word) : (s.jumpBy n).iptr = s.iptr + n := rfl
@[simp] theorem State.jumpBy_status (n : Word) : (s.jumpBy n).status = s.status := rfl
@[simp] theorem State.jumpBy_wptr (n : Word) : (s.jumpBy n).wptr = s.wptr := rfl
@[simp] theorem State.jumpBy_tdesc (n : Word) : (s.jumpBy n).tdesc = s.tdesc := rfl
@[simp] theorem State.jumpBy_ioreg (n : Word) : (s.jumpBy n).ioreg = s.ioreg := rfl
@[simp] theorem State.jumpBy_idv (n : Word) : (s.jumpBy n).idv = s.idv := rfl
@[simp] theorem State.jumpBy_prefixes (n : Word) : (s.jumpBy n).prefixes = s.prefixes := rfl
@[simp] theorem State.jumpBy_mem (n : Word) : (s.jumpBy n).mem = s.mem := rfl
@[simp] theorem State.jumpBy_saved (n : Word) : (s.jumpBy n).saved = s.saved := rfl
@[simp] theorem State.jumpBy_pending (n : Word) : (s.jumpBy n).pending = s.pending := rfl
@[simp] theorem State.jumpBy_controllerSignals (n : Word) : (s.jumpBy n).controllerSignals = s.controllerSignals := rfl
@[simp] theorem State.jumpBy_launch (n : Word) : (s.jumpBy n).launch = s.launch := rfl
@[simp] theorem State.jumpBy_draws (n : Word) : (s.jumpBy n).draws = s.draws := rfl

/-! ## State.setIoreg -/

@[simp] theorem State.setIoreg_areg (x y : BitVec 16) : (s.setIoreg x y).areg = s.areg := rfl
@[simp] theorem State.setIoreg_breg (x y : BitVec 16) : (s.setIoreg x y).breg = s.breg := rfl
@[simp] theorem State.setIoreg_creg (x y : BitVec 16) : (s.setIoreg x y).creg = s.creg := rfl
@[simp] theorem State.setIoreg_iptr (x y : BitVec 16) : (s.setIoreg x y).iptr = s.iptr := rfl
@[simp] theorem State.setIoreg_status (x y : BitVec 16) : (s.setIoreg x y).status = s.status := rfl
@[simp] theorem State.setIoreg_wptr (x y : BitVec 16) : (s.setIoreg x y).wptr = s.wptr := rfl
@[simp] theorem State.setIoreg_tdesc (x y : BitVec 16) : (s.setIoreg x y).tdesc = s.tdesc := rfl
@[simp] theorem State.setIoreg_ioreg (x y : BitVec 16) : (s.setIoreg x y).ioreg = ioWord x y := rfl
@[simp] theorem State.setIoreg_idv (x y : BitVec 16) : (s.setIoreg x y).idv = s.idv := rfl
@[simp] theorem State.setIoreg_prefixes (x y : BitVec 16) : (s.setIoreg x y).prefixes = s.prefixes := rfl
@[simp] theorem State.setIoreg_mem (x y : BitVec 16) : (s.setIoreg x y).mem = s.mem := rfl
@[simp] theorem State.setIoreg_saved (x y : BitVec 16) : (s.setIoreg x y).saved = s.saved := rfl
@[simp] theorem State.setIoreg_pending (x y : BitVec 16) : (s.setIoreg x y).pending = s.pending := rfl
@[simp] theorem State.setIoreg_controllerSignals (x y : BitVec 16) : (s.setIoreg x y).controllerSignals = s.controllerSignals := rfl
@[simp] theorem State.setIoreg_launch (x y : BitVec 16) : (s.setIoreg x y).launch = s.launch := rfl
@[simp] theorem State.setIoreg_draws (x y : BitVec 16) : (s.setIoreg x y).draws = s.draws := rfl

/-! ## State.clearIdv -/

@[simp] theorem State.clearIdv_areg : (s.clearIdv).areg = s.areg := rfl
@[simp] theorem State.clearIdv_breg : (s.clearIdv).breg = s.breg := rfl
@[simp] theorem State.clearIdv_creg : (s.clearIdv).creg = s.creg := rfl
@[simp] theorem State.clearIdv_iptr : (s.clearIdv).iptr = s.iptr := rfl
@[simp] theorem State.clearIdv_status : (s.clearIdv).status = s.status := rfl
@[simp] theorem State.clearIdv_wptr : (s.clearIdv).wptr = s.wptr := rfl
@[simp] theorem State.clearIdv_tdesc : (s.clearIdv).tdesc = s.tdesc := rfl
@[simp] theorem State.clearIdv_ioreg : (s.clearIdv).ioreg = s.ioreg := rfl
@[simp] theorem State.clearIdv_idv : (s.clearIdv).idv = 0#32 := rfl
@[simp] theorem State.clearIdv_prefixes : (s.clearIdv).prefixes = 0 := rfl
@[simp] theorem State.clearIdv_mem : (s.clearIdv).mem = s.mem := rfl
@[simp] theorem State.clearIdv_saved : (s.clearIdv).saved = s.saved := rfl
@[simp] theorem State.clearIdv_pending : (s.clearIdv).pending = s.pending := rfl
@[simp] theorem State.clearIdv_controllerSignals : (s.clearIdv).controllerSignals = s.controllerSignals := rfl
@[simp] theorem State.clearIdv_launch : (s.clearIdv).launch = s.launch := rfl
@[simp] theorem State.clearIdv_draws : (s.clearIdv).draws = s.draws := rfl

/-! ## State.spend -/

@[simp] theorem State.spend_areg (n : Nat) : (s.spend n).areg = s.areg := rfl
@[simp] theorem State.spend_breg (n : Nat) : (s.spend n).breg = s.breg := rfl
@[simp] theorem State.spend_creg (n : Nat) : (s.spend n).creg = s.creg := rfl
@[simp] theorem State.spend_iptr (n : Nat) : (s.spend n).iptr = s.iptr := rfl
@[simp] theorem State.spend_status (n : Nat) : (s.spend n).status = s.status := rfl
@[simp] theorem State.spend_wptr (n : Nat) : (s.spend n).wptr = s.wptr := rfl
@[simp] theorem State.spend_tdesc (n : Nat) : (s.spend n).tdesc = s.tdesc := rfl
@[simp] theorem State.spend_ioreg (n : Nat) : (s.spend n).ioreg = s.ioreg := rfl
@[simp] theorem State.spend_idv (n : Nat) : (s.spend n).idv = s.idv := rfl
@[simp] theorem State.spend_prefixes (n : Nat) : (s.spend n).prefixes = s.prefixes := rfl
@[simp] theorem State.spend_mem (n : Nat) : (s.spend n).mem = s.mem := rfl
@[simp] theorem State.spend_saved (n : Nat) : (s.spend n).saved = s.saved := rfl
@[simp] theorem State.spend_pending (n : Nat) : (s.spend n).pending = s.pending := rfl
@[simp] theorem State.spend_controllerSignals (n : Nat) : (s.spend n).controllerSignals = s.controllerSignals := rfl
@[simp] theorem State.spend_launch (n : Nat) : (s.spend n).launch = s.launch := rfl
@[simp] theorem State.spend_draws (n : Nat) : (s.spend n).draws = s.draws + n := rfl

/-! ## State.restore -/

@[simp] theorem State.restore_areg (c : Context) : (s.restore c).areg = c.areg := rfl
@[simp] theorem State.restore_breg (c : Context) : (s.restore c).breg = c.breg := rfl
@[simp] theorem State.restore_creg (c : Context) : (s.restore c).creg = c.creg := rfl
@[simp] theorem State.restore_iptr (c : Context) : (s.restore c).iptr = c.iptr := rfl
@[simp] theorem State.restore_status (c : Context) : (s.restore c).status = setStatusBit c.status .reserved (statusBit s.status .reserved) := rfl
@[simp] theorem State.restore_wptr (c : Context) : (s.restore c).wptr = c.wptr := rfl
@[simp] theorem State.restore_tdesc (c : Context) : (s.restore c).tdesc = c.tdesc := rfl
@[simp] theorem State.restore_ioreg (c : Context) : (s.restore c).ioreg = s.ioreg := rfl
@[simp] theorem State.restore_idv (c : Context) : (s.restore c).idv = s.idv := rfl
@[simp] theorem State.restore_prefixes (c : Context) : (s.restore c).prefixes = s.prefixes := rfl
@[simp] theorem State.restore_mem (c : Context) : (s.restore c).mem = s.mem := rfl
@[simp] theorem State.restore_saved (c : Context) : (s.restore c).saved = s.saved := rfl
@[simp] theorem State.restore_pending (c : Context) : (s.restore c).pending = s.pending := rfl
@[simp] theorem State.restore_controllerSignals (c : Context) : (s.restore c).controllerSignals = s.controllerSignals := rfl
@[simp] theorem State.restore_launch (c : Context) : (s.restore c).launch = s.launch := rfl
@[simp] theorem State.restore_draws (c : Context) : (s.restore c).draws = s.draws := rfl

end Sys2Proof.Machine
end

