-- ==== Sys2Proof/Laws/Status.lean ====
section
/-! SUPPORT. The fields of Status: what a write of one field leaves in each bit, and what each flag computation leaves. -/

namespace Sys2Proof.Machine

theorem StatusBit.position_lt (f : StatusBit) : f.position < 32 := by cases f <;> decide

theorem StatusBit.position_inj {f g : StatusBit} (h : f.position = g.position) : f = g := by
  cases f <;> cases g <;> first | rfl | exact absurd h (by decide)

/-- Writing a field changes its bit and no other. -/
theorem getLsbD_setStatusBit (st : Word) (f : StatusBit) (v : Bool) (k : Nat) (hk : k < 32) :
    (setStatusBit st f v).getLsbD k = if k = f.position then v else st.getLsbD k := by
  have hp := StatusBit.position_lt f
  simp only [setStatusBit, BitVec.getLsbD_or, BitVec.getLsbD_and, BitVec.getLsbD_not,
    BitVec.getLsbD_shiftLeft, BitVec.getLsbD_setWidth, BitVec.getLsbD_ofBool, BitVec.getLsbD_one]
  by_cases h : k = f.position
  · subst h
    simp [hk]
  · rcases Nat.lt_or_gt_of_ne h with h' | h'
    · simp [hk, h, h']
    · have h1 : ¬ k < f.position := by omega
      have h2 : k - f.position ≠ 0 := by omega
      simp [hk, h, h1, h2]

/-- Reading the field just written. -/
@[simp] theorem statusBit_setStatusBit_self (st : Word) (f : StatusBit) (v : Bool) :
    statusBit (setStatusBit st f v) f = v := by
  simp [statusBit, getLsbD_setStatusBit _ _ _ _ (StatusBit.position_lt f)]

/-- Writing a field leaves every other field alone. -/
theorem statusBit_setStatusBit_of_ne (st : Word) {f g : StatusBit} (v : Bool) (h : g ≠ f) :
    statusBit (setStatusBit st f v) g = statusBit st g := by
  have : g.position ≠ f.position := fun e => h (StatusBit.position_inj e)
  simp [statusBit, getLsbD_setStatusBit _ _ _ _ (StatusBit.position_lt g), this]

/-- Reading any field after writing one. -/
theorem statusBit_setStatusBit (st : Word) (f g : StatusBit) (v : Bool) :
    statusBit (setStatusBit st f v) g = if g = f then v else statusBit st g := by
  split_ifs with h
  · rw [h, statusBit_setStatusBit_self]
  · exact statusBit_setStatusBit_of_ne st v h

/-- A checked operation writes overflow and underflow only. -/
theorem getLsbD_checkedStatus (st : Word) (x : Int) (o u : Bool) (k : Nat) (hk : k < 32)
    (ho : k ≠ StatusBit.overflow.position) (hu : k ≠ StatusBit.underflow.position) :
    (checkedStatus st x o u).getLsbD k = st.getLsbD k := by
  simp [checkedStatus, getLsbD_setStatusBit _ _ _ _ hk, ho, hu]

theorem statusBit_checkedStatus_overflow (st : Word) (x : Int) (o u : Bool) :
    statusBit (checkedStatus st x o u) .overflow =
      if mostPos.toInt < x then true else clearedOrKept o (statusBit st .overflow) := by
  simp [checkedStatus, statusBit_setStatusBit]

theorem statusBit_checkedStatus_underflow (st : Word) (x : Int) (o u : Bool) :
    statusBit (checkedStatus st x o u) .underflow =
      if x < mostNeg.toInt then true else clearedOrKept u (statusBit st .underflow) := by
  simp [checkedStatus]

/-- Undefined flags are overflow and underflow only. -/
theorem getLsbD_undefinedFlags (st : Word) (o u : Bool) (k : Nat) (hk : k < 32)
    (ho : k ≠ StatusBit.overflow.position) (hu : k ≠ StatusBit.underflow.position) :
    (undefinedFlags st o u).getLsbD k = st.getLsbD k := by
  simp [undefinedFlags, getLsbD_setStatusBit _ _ _ _ hk, ho, hu]

theorem statusBit_undefinedFlags_overflow (st : Word) (o u : Bool) :
    statusBit (undefinedFlags st o u) .overflow = o := by
  simp [undefinedFlags, statusBit_setStatusBit]

theorem statusBit_undefinedFlags_underflow (st : Word) (o u : Bool) :
    statusBit (undefinedFlags st o u) .underflow = u := by
  simp [undefinedFlags]

/-- The mode bits of a handler (R144). -/
theorem statusBit_handlerModes_user (kind : ExceptionKind) (old new : Word) :
    statusBit (handlerModes kind old new) .userMode = false := by
  cases kind <;> simp [handlerModes, statusBit_setStatusBit]

theorem statusBit_handlerModes_interrupt (kind : ExceptionKind) (old new : Word) :
    statusBit (handlerModes kind old new) .interruptMode =
      (decide (kind = .interrupt) || statusBit old .interruptMode) := by
  cases kind <;> simp [handlerModes, statusBit_setStatusBit]

theorem statusBit_handlerModes_trap (kind : ExceptionKind) (old new : Word) :
    statusBit (handlerModes kind old new) .trapMode = decide (kind = .timesliceTrap) := by
  cases kind <;> simp [handlerModes]

end Sys2Proof.Machine
end

