-- ==== Sys2Proof/Laws/Ops.lean ====
section
/-! SUPPORT. One lemma for each shared operation that says everything it can do; later proofs cite these and do not unfold the
operations. -/

namespace Sys2Proof.Machine

/-! ## Access checks -/

theorem allInRegions_iff (rs : List Region) (a : Word) (n : Nat) :
    allInRegions rs a n = true ↔ ∀ k < n, inRegions rs (a + BitVec.ofNat 32 k) = true := by
  simp [allInRegions]

theorem someInRegions_eq_false_iff (rs : List Region) (a : Word) (n : Nat) :
    someInRegions rs a n = false ↔ ∀ k < n, inRegions rs (a + BitVec.ofNat 32 k) = false := by
  simp [someInRegions]

/-- A misaligned access is a fault whatever the memory map says (R36). -/
theorem accessFault_of_misaligned (s : State) {a : Word} {n : Nat} (h : a.toNat % n ≠ 0) :
    accessFault s a n = some .misalignedAccess := by
  simp [accessFault, aligned, h]

/-- A word access has no fault exactly where the spec gives it a meaning. -/
theorem accessFault_word_eq_none_iff (s : State) (a : Word) :
    accessFault s a 4 = none ↔ WordAdmitted s a := by
  have hm := allInRegions_iff s.launch.memMap a 4
  have hr := someInRegions_eq_false_iff s.launch.reserved a 4
  unfold accessFault WordAdmitted MemAdmitted aligned
  by_cases h1 : a.toNat % 4 = 0
  · cases h2 : allInRegions s.launch.memMap a 4
    · have : ¬ ∀ k < 4, inRegions s.launch.memMap (a + BitVec.ofNat 32 k) = true := by
        rw [← hm, h2]
        simp
      simp only [h1, beq_self_eq_true, Bool.not_true, Bool.false_eq_true, if_false, Bool.not_false, if_true,
        reduceCtorEq, true_and, false_iff]
      exact fun hall => this fun k hk => (hall k hk).1
    · cases h3 : someInRegions s.launch.reserved a 4
      · have hm' := hm.1 h2
        have hr' := hr.1 h3
        simp only [h1, beq_self_eq_true, Bool.not_true, Bool.false_eq_true, if_false, true_and, true_iff]
        exact fun k hk => ⟨hm' k hk, hr' k hk⟩
      · have : ¬ ∀ k < 4, inRegions s.launch.reserved (a + BitVec.ofNat 32 k) = false := by
          rw [← hr, h3]
          simp
        simp only [h1, beq_self_eq_true, Bool.not_true, Bool.false_eq_true, if_false, if_true, reduceCtorEq,
          true_and, false_iff]
        exact fun hall => this fun k hk => (hall k hk).2
  · simp [h1]

/-- A load where the spec gives it a meaning. -/
theorem load_of_admitted {s : State} {a : Word} (h : WordAdmitted s a) :
    load s a 4 = .ok (Memory.read s.mem a 4) := by
  simp [load, (accessFault_word_eq_none_iff s a).2 h]

theorem withWord_of_admitted {s : State} {a : Word} (h : WordAdmitted s a) (k : Word → State) :
    withWord s a k = .next (k (Memory.read s.mem a 4)) := by
  simp [withWord, load_of_admitted h]

theorem withWord_of_misaligned {s : State} {a : Word} (h : a.toNat % 4 ≠ 0) (k : Word → State) :
    withWord s a k = .fault .misalignedAccess := by
  simp [withWord, load, accessFault_of_misaligned s h]

/-- Everything a load can do: it answers next only where the access is admitted, with the word read. -/
theorem withWord_next {s t : State} {a : Word} {k : Word → State} (h : withWord s a k = .next t) :
    WordAdmitted s a ∧ t = k (Memory.read s.mem a 4) := by
  cases hf : accessFault s a 4 with
  | some f => simp [withWord, load, hf] at h
  | none =>
    refine ⟨(accessFault_word_eq_none_iff s a).1 hf, ?_⟩
    simpa [withWord, load, hf] using h.symm

/-- A store where the spec gives it a meaning. -/
theorem store_of_admitted {s : State} {a : Word} (h : WordAdmitted s a) (ht : TextFixed s a 4) (v : Word) :
    store s a 4 v = .next { s with mem := Memory.write s.mem a 4 v } := by
  simp [store, (accessFault_word_eq_none_iff s a).2 h,
    (someInRegions_eq_false_iff s.launch.text a 4).2 ht]

theorem store_of_misaligned {s : State} {a : Word} (h : a.toNat % 4 ≠ 0) (v : Word) :
    store s a 4 v = .fault .misalignedAccess := by
  simp [store, accessFault_of_misaligned s h]

/-- Everything a store can do: it answers next only where the access is admitted and clear of the program text, and then
memory is written and nothing else. -/
theorem store_next {s t : State} {a v : Word} (h : store s a 4 v = .next t) :
    WordAdmitted s a ∧ TextFixed s a 4 ∧ t = { s with mem := Memory.write s.mem a 4 v } := by
  cases hf : accessFault s a 4 with
  | some f => simp [store, hf] at h
  | none =>
    cases ht : someInRegions s.launch.text a 4
    · refine ⟨(accessFault_word_eq_none_iff s a).1 hf, (someInRegions_eq_false_iff _ _ _).1 ht, ?_⟩
      simpa [store, hf, ht] using h.symm
    · simp [store, hf, ht] at h

theorem andThen_next {o : Result} {k : State → State} {t : State} (h : andThen o k = .next t) :
    ∃ s, o = .next s ∧ t = k s := by
  cases o with
  | next s => exact ⟨s, rfl, by simpa [andThen] using h.symm⟩
  | fault f => simp [andThen] at h
  | refused r => simp [andThen] at h

@[simp] theorem andThen_of_next (s : State) (k : State → State) : andThen (.next s) k = .next (k s) := rfl
@[simp] theorem andThen_of_fault (f : Fault) (k : State → State) : andThen (.fault f) k = .fault f := rfl
@[simp] theorem andThen_of_refused (r : Refusal) (k : State → State) : andThen (.refused r) k = .refused r := rfl

/-! ## The instruction data value -/

/-- Everything a prefix can do. -/
theorem extendIdv_next {s t : State} {v : Word} (h : extendIdv s v = .next t) :
    s.prefixes < 7 ∧ t = { s with idv := v, prefixes := s.prefixes + 1 } := by
  unfold extendIdv at h
  split_ifs at h with hp
  exact ⟨by omega, by simpa using h.symm⟩

theorem extendIdv_of_lt {s : State} (h : s.prefixes < 7) (v : Word) :
    extendIdv s v = .next { s with idv := v, prefixes := s.prefixes + 1 } := by
  have : ¬ 7 ≤ s.prefixes := by omega
  simp [extendIdv, this]

theorem extendIdv_of_full {s : State} (h : 7 ≤ s.prefixes) (v : Word) :
    extendIdv s v = .refused .prefixChainTooLong := by
  simp [extendIdv, h]

/-! ## Exceptions -/

/-- What taking an exception leaves alone. -/
theorem takeException_frame (kind : ExceptionKind) (s : State) :
    (takeException kind s).mem = s.mem ∧ (takeException kind s).ioreg = s.ioreg ∧
      (takeException kind s).idv = s.idv ∧ (takeException kind s).prefixes = s.prefixes ∧
      (takeException kind s).pending = s.pending ∧ (takeException kind s).launch = s.launch ∧
      (takeException kind s).controllerSignals = s.controllerSignals :=
  ⟨rfl, rfl, rfl, rfl, rfl, rfl, rfl⟩

@[simp] theorem takeException_saved (kind : ExceptionKind) (s : State) :
    (takeException kind s).saved = s.context :: s.saved := rfl

/-- The interrupt controller is told when an interrupt handler ends, and not at the end of the other rows of R144. -/
theorem signalRequired_of_handler {st : Word} (hu : statusBit st .userMode = false)
    (hi : statusBit st .interruptMode = true) (ht : statusBit st .trapMode = false) (free : Bool) :
    signalRequired st free = true := by simp [signalRequired, hu, hi, ht]

theorem signalRequired_of_user {st : Word} (hu : statusBit st .userMode = true)
    (hi : statusBit st .interruptMode = false) (ht : statusBit st .trapMode = false) (free : Bool) :
    signalRequired st free = false := by simp [signalRequired, hu, hi, ht]

theorem signalRequired_of_trap {st : Word} (hu : statusBit st .userMode = false)
    (ht : statusBit st .trapMode = true) (free : Bool) : signalRequired st free = false := by
  cases hi : statusBit st .interruptMode <;> simp [signalRequired, hu, hi, ht]

/-- A return with a process state saved. -/
theorem returnFromException_cons {s : State} {c : Context} {rest : List Context} (h : s.saved = c :: rest) :
    returnFromException s = ({ (signalController s).restore c with saved := rest } : State).spend 7 := by
  simp [returnFromException, h]

/-- A return with none saved. -/
theorem returnFromException_nil {s : State} (h : s.saved = []) :
    returnFromException s = ((signalController s).restore s.freeContext).spend 7 := by
  simp [returnFromException, h]

/-- What returning from an exception leaves alone. -/
theorem returnFromException_frame (s : State) :
    (returnFromException s).mem = s.mem ∧ (returnFromException s).ioreg = s.ioreg ∧
      (returnFromException s).idv = s.idv ∧ (returnFromException s).prefixes = s.prefixes ∧
      (returnFromException s).pending = s.pending ∧ (returnFromException s).launch = s.launch ∧
      (returnFromException s).draws = s.draws + 7 ∧
      (returnFromException s).controllerSignals =
        s.controllerSignals + (signalRequired s.status (s.freeBit 0)).toNat ∧
      statusBit (returnFromException s).status .reserved = statusBit s.status .reserved := by
  unfold returnFromException signalController
  cases s.saved <;> simp

/-- A context restored is held, but for the reserved bit of Status. -/
theorem restore_holds (s : State) (c : Context) : HoldsContext (s.restore c) c := by
  refine ⟨⟨rfl, rfl, rfl⟩, rfl, rfl, rfl, fun k hk hr => ?_⟩
  simp [getLsbD_setStatusBit _ _ _ _ hk, hr]

end Sys2Proof.Machine
end

