-- ==== Sys2Proof/Laws/PerInstr.lean ====
section
/-! SUPPORT. The family CodeLength, proved instruction by instruction: "Instructions take between 1 and 8 units to code"
(spec/30_encoding.md R54). -/

namespace Sys2Proof

/-- An encoding within `k` prefixes has between 1 and k + 1 components. -/
theorem encodeWithin_length (t : FnTable) (k : Nat) (f : Func) (v : Word) :
    1 ≤ (encodeWithin t k f v).length ∧ (encodeWithin t k f v).length ≤ k + 1 := by
  induction k generalizing f v with
  | zero => simp [encodeWithin]
  | succ k ih =>
    unfold encodeWithin
    split_ifs
    · simp
    · have := ih .nfix ((~~~ v) >>> 4)
      simp only [List.length_append, List.length_singleton]
      omega
    · have := ih .pfix (v >>> 4)
      simp only [List.length_append, List.length_singleton]
      omega

/-- An encoded operand takes between 1 and 8 units (R54). -/
theorem encodeOperand_length (t : FnTable) (f : Func) (v : Word) :
    1 ≤ (encodeOperand t f v).length ∧ (encodeOperand t f v).length ≤ 8 := encodeWithin_length t 7 f v

/-- A secondary instruction that has an operation code takes between 1 and 8 units (R54, R57). -/
theorem encodeOperation_length (t : FnTable) {i : Instr} (h : hasOperationCode i = true) :
    1 ≤ (encodeOperation t i).length ∧ (encodeOperation t i).length ≤ 8 := by
  unfold hasOperationCode at h
  obtain ⟨c, hc⟩ := Option.isSome_iff_exists.1 h
  unfold encodeOperation
  rw [hc]
  exact encodeOperand_length t .opr c

/-- A well-formed instruction takes between 1 and 8 units, whatever the function codes (R54). -/
def Laws.CodeLength.Statement (i : Instr) : Prop :=
  ∀ t : FnTable, i.wellFormed = true → 1 ≤ (encode t i).length ∧ (encode t i).length ≤ 8

theorem Laws.CodeLength.pfix (d : Nibble) : Laws.CodeLength.Statement (.pfix d) :=
  fun _ _ => by simp [encode]

theorem Laws.CodeLength.nfix (d : Nibble) : Laws.CodeLength.Statement (.nfix d) :=
  fun _ _ => by simp [encode]

theorem Laws.CodeLength.opr (n : Word) : Laws.CodeLength.Statement (.opr n) :=
  fun t _ => encodeOperand_length t .opr n

theorem Laws.CodeLength.adc (n : Word) : Laws.CodeLength.Statement (.adc n) :=
  fun t _ => encodeOperand_length t .adc n

theorem Laws.CodeLength.ajw (n : Word) : Laws.CodeLength.Statement (.ajw n) :=
  fun t _ => encodeOperand_length t .ajw n

theorem Laws.CodeLength.fcall (n : Word) : Laws.CodeLength.Statement (.fcall n) :=
  fun t _ => encodeOperand_length t .fcall n

theorem Laws.CodeLength.cj (n : Word) : Laws.CodeLength.Statement (.cj n) :=
  fun t _ => encodeOperand_length t .cj n

theorem Laws.CodeLength.eqc (n : Word) : Laws.CodeLength.Statement (.eqc n) :=
  fun t _ => encodeOperand_length t .eqc n

theorem Laws.CodeLength.j (n : Word) : Laws.CodeLength.Statement (.j n) :=
  fun t _ => encodeOperand_length t .j n

theorem Laws.CodeLength.ldc (n : Word) : Laws.CodeLength.Statement (.ldc n) :=
  fun t _ => encodeOperand_length t .ldc n

theorem Laws.CodeLength.ldl (n : Word) : Laws.CodeLength.Statement (.ldl n) :=
  fun t _ => encodeOperand_length t .ldl n

theorem Laws.CodeLength.ldlp (n : Word) : Laws.CodeLength.Statement (.ldlp n) :=
  fun t _ => encodeOperand_length t .ldlp n

theorem Laws.CodeLength.ldnl (n : Word) : Laws.CodeLength.Statement (.ldnl n) :=
  fun t _ => encodeOperand_length t .ldnl n

theorem Laws.CodeLength.ldnlp (n : Word) : Laws.CodeLength.Statement (.ldnlp n) :=
  fun t _ => encodeOperand_length t .ldnlp n

theorem Laws.CodeLength.stl (n : Word) : Laws.CodeLength.Statement (.stl n) :=
  fun t _ => encodeOperand_length t .stl n

theorem Laws.CodeLength.stnl (n : Word) : Laws.CodeLength.Statement (.stnl n) :=
  fun t _ => encodeOperand_length t .stnl n

theorem Laws.CodeLength.add : Laws.CodeLength.Statement .add :=
  fun t h => encodeOperation_length t h

theorem Laws.CodeLength.and : Laws.CodeLength.Statement .and :=
  fun t h => encodeOperation_length t h

theorem Laws.CodeLength.rot : Laws.CodeLength.Statement .rot :=
  fun t h => encodeOperation_length t h

theorem Laws.CodeLength.arot : Laws.CodeLength.Statement .arot :=
  fun t h => encodeOperation_length t h

theorem Laws.CodeLength.dup : Laws.CodeLength.Statement .dup :=
  fun t h => encodeOperation_length t h

theorem Laws.CodeLength.rev : Laws.CodeLength.Statement .rev :=
  fun t h => encodeOperation_length t h

theorem Laws.CodeLength.mul : Laws.CodeLength.Statement .mul :=
  fun t h => encodeOperation_length t h

theorem Laws.CodeLength.addc : Laws.CodeLength.Statement .addc :=
  fun t h => encodeOperation_length t h

theorem Laws.CodeLength.subc : Laws.CodeLength.Statement .subc :=
  fun t h => encodeOperation_length t h

theorem Laws.CodeLength.swap32 : Laws.CodeLength.Statement .swap32 :=
  fun t h => encodeOperation_length t h

theorem Laws.CodeLength.gajw : Laws.CodeLength.Statement .gajw :=
  fun t h => encodeOperation_length t h

theorem Laws.CodeLength.io : Laws.CodeLength.Statement .io :=
  fun t h => encodeOperation_length t h

theorem Laws.CodeLength.ldprodid : Laws.CodeLength.Statement .ldprodid :=
  fun t h => encodeOperation_length t h

theorem Laws.CodeLength.eret : Laws.CodeLength.Statement .eret :=
  fun t h => encodeOperation_length t h

theorem Laws.CodeLength.mac : Laws.CodeLength.Statement .mac :=
  fun t h => encodeOperation_length t h

theorem Laws.CodeLength.umac : Laws.CodeLength.Statement .umac :=
  fun t h => encodeOperation_length t h

end Sys2Proof
end

