-- ==== Sys2Proof/Laws/Step.lean ====
section
/-! SUPPORT. What a step can do, said once: an exception taken between instructions, or one component fetched, decoded and
executed. -/

namespace Sys2Proof.Machine

/-! ## The events between instructions -/

/-- Inside an instruction no event comes first (R53, D25). -/
theorem boundaryEvent_of_inside {s : State} (h : s.prefixes ≠ 0) : boundaryEvent s = none := by
  simp [boundaryEvent, h]

/-- In a quiet state no event comes first. -/
theorem boundaryEvent_of_quiet {s : State} (h : Quiet s) : boundaryEvent s = none := by
  by_cases hp : s.prefixes = 0
  · obtain ⟨h1, ⟨h2, h3⟩, h4⟩ := h.2 hp
    unfold boundaryEvent
    have h1' : ¬ s.launch.endAddr = some s.iptr := h1
    simp only [hp, ne_eq, not_true_eq_false, if_false, h1', h2, h3, Bool.false_eq_true]
    cases hq : s.pending with
    | nil => rfl
    | cons kind rest =>
      have : canTake s.status kind = false := h4 kind (by simp [hq])
      simp [this]
  · exact boundaryEvent_of_inside hp

/-- The only event with a next state is an exception taken (R143). -/
theorem boundaryEvent_next {s t : State} (h : boundaryEvent s = some (.next t)) :
    ∃ kind rest, s.prefixes = 0 ∧ s.pending = kind :: rest ∧ canTake s.status kind = true ∧
      t = takeException kind { s with pending := rest } := by
  unfold boundaryEvent at h
  split_ifs at h with h1 h2 h3 h4
  · simp at h
  · simp at h
  · simp at h
  · cases hq : s.pending with
    | nil => simp [hq] at h
    | cons kind rest =>
      simp only [hq] at h
      split_ifs at h with hc
      exact ⟨kind, rest, by simpa using h1, rfl, hc, by simpa using h.symm⟩

/-- In a quiet state an instruction is next. -/
theorem precedingEvent_of_quiet {s : State} (h : Quiet s) : precedingEvent s = none := by
  have ht : statusBit s.status .timesliceEnable = false := h.1
  simp [precedingEvent, boundaryEvent_of_quiet h, ht]

/-- Everything that can come in place of an instruction and have a next state: an exception taken. -/
theorem precedingEvent_next {s t : State} (h : precedingEvent s = some (.next t)) :
    boundaryEvent s = some (.next t) := by
  unfold precedingEvent at h
  cases hb : boundaryEvent s with
  | some o => simpa [hb] using h
  | none =>
    simp only [hb] at h
    split_ifs at h
    simp at h

/-- An instruction is next only while timeslicing is off (R152). -/
theorem noTimeslice_of_precedingEvent {s : State} (h : precedingEvent s = none) : NoTimeslice s := by
  unfold precedingEvent at h
  cases hb : boundaryEvent s with
  | some o => simp [hb] at h
  | none =>
    simp only [hb] at h
    split_ifs at h with ht
    exact Bool.eq_false_iff.2 ht

/-! ## Fetch -/

theorem advance_prefixing {i : Instr} (h : i.isPrefixing = true) (s : State) :
    advance i s = s.setIptr (s.iptr + 1#32) := by simp [advance, h]

theorem advance_completing {i : Instr} (h : i.isPrefixing = false) (s : State) :
    advance i s = (s.setIptr (s.iptr + 1#32)).clearIdv := by simp [advance, h]

/-- Fetch from memory the launch admits (R64). -/
theorem fetch_of_mapped {s : State} (h : inRegions s.launch.memMap s.iptr = true) :
    fetch s = .ok (fetchedInstr s, advance (fetchedInstr s) (fetchSpent s)) := by
  simp [fetch, h]

/-- Outside the reserved addresses the byte fetched is the byte of memory, and no free value is used (R39). -/
theorem fetchedByte_of_unreserved {s : State} (h : inRegions s.launch.reserved s.iptr = false) :
    fetchedByte s = Memory.byte s.mem s.iptr := by simp [fetchedByte, h]

theorem fetchSpent_of_unreserved {s : State} (h : inRegions s.launch.reserved s.iptr = false) :
    fetchSpent s = s := by simp [fetchSpent, h]

/-- A fetch changes nothing but the count of free values used. -/
theorem fetchSpent_eq (s : State) :
    fetchSpent s = s ∨ fetchSpent s = s.spend 1 := by
  unfold fetchSpent
  split_ifs
  · exact .inr rfl
  · exact .inl rfl

/-! ## The step -/

/-- Everything a step with a next state can be. -/
theorem step_next {s t : State} (h : step s = .next t) :
    (∃ kind rest, s.prefixes = 0 ∧ s.pending = kind :: rest ∧ canTake s.status kind = true ∧
      t = takeException kind { s with pending := rest }) ∨
    (NoTimeslice s ∧ inRegions s.launch.memMap s.iptr = true ∧
      exec (fetchedInstr s) (advance (fetchedInstr s) (fetchSpent s)) = .next t) := by
  unfold step at h
  cases hb : precedingEvent s with
  | some o =>
    simp only [hb] at h
    exact .inl (boundaryEvent_next (precedingEvent_next (by rw [hb, h])))
  | none =>
    simp only [hb] at h
    by_cases hm : inRegions s.launch.memMap s.iptr = true
    · rw [fetch_of_mapped hm] at h
      exact .inr ⟨noTimeslice_of_precedingEvent hb, hm, h⟩
    · simp [fetch, hm] at h

/-! ## Decoding one component -/

/-- A component is a prefix exactly where it changes the instruction data value under construction. -/
theorem decodeComponent_isPrefixing (t : FnTable) (idv : Word) (b : Byte) :
    (decodeComponent t idv b).isPrefixing = (prefixValue? t idv b).isSome := by
  unfold decodeComponent prefixValue?
  cases componentFunction t b <;> simp only [Instr.isPrefixing, Option.isSome_some, Option.isSome_none]
  unfold decodeOperate opCode
  split_ifs <;> rfl

end Sys2Proof.Machine
end

