-- ==== Sys2Proof/Tests/Slice0.lean ====
section
/-! SUPPORT. Tests of the model, and for every statement with hypotheses a state and operands that meet them. The expected
values are those of spec/95_test_vectors.md (its vector or example is named) or are worked out by hand from the rule
named; none is the model's own answer. -/

namespace Sys2Proof.Tests

open Sys2Proof Sys2Proof.Machine

/-! ## Helpers -/

/-- A field of the next state, if there is one. -/
def afterwards {α : Type} (o : Result) (f : State → α) : Option α :=
  match o with
  | .next s => some (f s)
  | .fault _ => none
  | .refused _ => none

/-- The fault an outcome is, if it is one. -/
def faultOf : Result → Option Fault
  | .next _ => none
  | .fault f => some f
  | .refused _ => none

/-- The refusal an outcome is, if it is one. -/
def refusalOf : Result → Option Refusal
  | .next _ => none
  | .fault _ => none
  | .refused r => some r

/-- The evaluation stack. -/
def stack (s : State) : Word × Word × Word := (s.areg, s.breg, s.creg)

/-- Bytes placed upward from an address. -/
def place (m : Memory) (a : Word) : List Byte → Memory
  | [] => m
  | b :: bs => place (Memory.setByte m a b) (a + 1#32) bs

/-- A small state: Wptr as in V-pri, this evaluation stack, nothing in memory. -/
def holding (a b c : Word) : State :=
  { State.reset with areg := a, breg := b, creg := c, wptr := 0x80001000#32, iptr := 0x80000100#32 }

/-- This code at this Iptr. -/
def running (pc : Word) (code : List Byte) (s : State) : State :=
  { s with iptr := pc, mem := place s.mem pc code }

/-- This word in memory. -/
def withData (a v : Word) (s : State) : State := { s with mem := Memory.write s.mem a 4 v }

/-- This Status. -/
def withStatus (v : Word) (s : State) : State := { s with status := v }

/-- The program text is the 256 bytes from 0x80000100. -/
def withText (s : State) : State :=
  { s with launch := { s.launch with text := [{ base := 0x80000100#32, size := 256 }] } }

/-- A launch that adds to the table of operation codes rows for `rot` and `mul`, and one that names no secondary
instruction. -/
def withOperations : State :=
  { holding 1#32 2#32 3#32 with
    launch := { Launch.reset with operations := [(0x18#32, .rot), (0x19#32, .j 0#32), (0x1A#32, .mul)] } }

/-! ## Well-formedness: one ill-formed term for each check -/

theorem test_wellFormed_refuses_a_lost_operation_code : Instr.wellFormed .rot = false := by decide

theorem test_wellFormed_refuses_operate_with_a_known_code : Instr.wellFormed (.opr 4#32) = false := by decide

theorem test_wellFormed_refuses_operate_nine : Instr.wellFormed (.opr 9#32) = false := by decide

theorem test_wellFormed_admits_bare_operate : Instr.wellFormed (.opr 0xF9#32) = true := by decide

theorem test_wellFormed_admits_add_and_and :
    Instr.wellFormed .add = true ∧ Instr.wellFormed .and = true := by decide

/-! ## Decoding: words written out from R50, R58, R59 -/

/-- S1: `adc n` is 8n. -/
theorem test_decode_adc : decodeComponent defaultFnTable 0#32 0x81#8 = .adc 1#32 ∧
    decodeComponent defaultFnTable 0#32 0x8F#8 = .adc 15#32 := by
  decide

theorem test_decode_j_ldlp : decodeComponent defaultFnTable 0#32 0x03#8 = .j 3#32 ∧
    decodeComponent defaultFnTable 0#32 0x13#8 = .ldlp 3#32 := by
  decide

theorem test_decode_pfix_nfix :
    decodeComponent defaultFnTable 0x10#32 0x2A#8 = .pfix 0xA#4 ∧
    decodeComponent defaultFnTable 0x10#32 0x60#8 = .nfix 0x0#4 := by decide

theorem test_decode_ldnl_ldc : decodeComponent defaultFnTable 0#32 0x31#8 = .ldnl 1#32 ∧
    decodeComponent defaultFnTable 0#32 0x4F#8 = .ldc 15#32 := by
  decide

theorem test_decode_ldnlp_ldl : decodeComponent defaultFnTable 0#32 0x54#8 = .ldnlp 4#32 ∧
    decodeComponent defaultFnTable 0#32 0x72#8 = .ldl 2#32 := by
  decide

theorem test_decode_fcall_cj : decodeComponent defaultFnTable 0#32 0x95#8 = .fcall 5#32 ∧
    decodeComponent defaultFnTable 0#32 0xA6#8 = .cj 6#32 := by
  decide

theorem test_decode_ajw_eqc :
    decodeComponent defaultFnTable 0xFFFFFFF0#32 0xBC#8 = .ajw 0xFFFFFFFC#32 ∧
    decodeComponent defaultFnTable 0x10#32 0xC1#8 = .eqc 17#32 := by decide

theorem test_decode_stl_stnl : decodeComponent defaultFnTable 0#32 0xD1#8 = .stl 1#32 ∧
    decodeComponent defaultFnTable 0#32 0xE3#8 = .stnl 3#32 := by
  decide

/-- S3, S7: F4 is `add` and F9 is `and`. -/
theorem test_decode_add_and : decodeComponent defaultFnTable 0#32 0xF4#8 = .add ∧
    decodeComponent defaultFnTable 0#32 0xF9#8 = .and := by decide

/-- A table of function codes with those of `ldc` and `ldl` exchanged. -/
def otherTable : FnTable := { defaultFnTable with ldc := 0x7#4, ldl := 0x4#4 }

/-- R59: another table reads 41 as `ldl 1`, and reads `adc` and `opr` as every table does. -/
theorem test_decode_other_table :
    otherTable.wf ∧ decodeComponent otherTable 0#32 0x41#8 = .ldl 1#32 ∧
      decodeComponent otherTable 0#32 0x81#8 = .adc 1#32 ∧ decodeComponent otherTable 0#32 0xF4#8 = .add ∧
      encode otherTable (.ldc 1#32) = [0x71#8] := by decide

/-- A table that gives one code twice is no bijection. -/
theorem test_wf_refuses_a_repeated_code : ¬ FnTable.wf { defaultFnTable with ldc := 0x8#4 } := by decide

/-- S9, V-ref: an operation code no known instruction has. -/
theorem test_decode_opr :
    decode defaultFnTable [0x2F#8, 0xF9#8] = .ok (.opr 0xF9#32, []) ∧
    decode defaultFnTable [0x60#8, 0xF0#8] = .ok (.opr 0xFFFFFFF0#32, []) :=
  ⟨rfl, rfl⟩

/-- S4. -/
theorem test_decode_2A68 : decode defaultFnTable [0x22#8, 0x2A#8, 0x26#8, 0x48#8] = .ok (.ldc 0x2A68#32, []) := rfl

/-- V-enc: `ldc -257`. -/
theorem test_decode_minus_257 : decode defaultFnTable [0x21#8, 0x60#8, 0x4F#8] = .ok (.ldc 0xFFFFFEFF#32, []) := rfl

/-- V-odd: OR first, then complement, then shift. -/
theorem test_decode_two_negative_prefixes :
    decode defaultFnTable [0x6F#8, 0x6F#8, 0x4F#8] = .ok (.ldc 0xF0F#32, []) := rfl

/-- V-odd: padding. -/
theorem test_decode_padding : decode defaultFnTable [0x20#8, 0x20#8, 0x45#8] = .ok (.ldc 5#32, []) := rfl

/-- V-ref: nine components. -/
theorem test_decode_nine_components :
    decode defaultFnTable [0x21#8, 0x21#8, 0x21#8, 0x21#8, 0x21#8, 0x21#8, 0x21#8, 0x21#8, 0x41#8] = .error .prefixChainTooLong := rfl

theorem test_decode_truncated : decode defaultFnTable [0x21#8] = .error .truncated := rfl

/-- V-enc: MostNeg. -/
theorem test_encode_mostNeg :
    encode defaultFnTable (.ldc 0x80000000#32) = [0x27#8, 0x2F#8, 0x2F#8, 0x2F#8, 0x2F#8, 0x2F#8, 0x6F#8, 0x40#8] := by decide

/-- V-enc: 256 and -4097. -/
theorem test_encode_256_and_minus_4097 :
    encode defaultFnTable (.ldc 256#32) = [0x21#8, 0x20#8, 0x40#8] ∧
      encode defaultFnTable (.ldc 0xFFFFEFFF#32) = [0x21#8, 0x20#8, 0x60#8, 0x4F#8] := by decide

/-- S1: the first byte of a table word. -/
theorem test_decodeTableWord_adc : decodeTableWord 8 0x81 = some (.adc 1#32) := by decide

/-! ## Single instructions -/

/-- V-enc row -257, first component: the instruction data value becomes 0x10. -/
theorem test_pfix : afterwards (exec (.pfix 1#4) (holding 0#32 0#32 0#32)) (fun s => (s.idv, s.prefixes)) =
    some (0x10#32, 1) := by decide

/-- V-enc row -257, second component: 0x10 becomes FFFFFEF0. -/
theorem test_nfix :
    afterwards (exec (.nfix 0#4) { holding 0#32 0#32 0#32 with idv := 0x10#32, prefixes := 1 }) (fun s => s.idv) =
      some 0xFFFFFEF0#32 := by decide

/-- V-odd: the eighth prefix. -/
theorem test_eighth_prefix :
    refusalOf (exec (.pfix 1#4) { holding 0#32 0#32 0#32 with idv := 0x11111110#32, prefixes := 7 }) =
      some .prefixChainTooLong := by decide

/-- R72: `opr 4` executes `add`. -/
theorem test_opr_add :
    afterwards (exec (.opr 4#32) (holding 1#32 2#32 7#32)) stack = some (3#32, 7#32, 1#32) := by decide

/-- R60, R72: an operation code that the launch supplies. -/
theorem test_opr_supplied : afterwards (exec (.opr 0x18#32) withOperations) stack = some (2#32, 3#32, 1#32) := by decide

/-- R61, R72, D9: a row whose instruction's definition is lost. -/
theorem test_opr_lost_definition : refusalOf (exec (.opr 0x1A#32) withOperations) = some (.lostDefinition "mul") := by
  decide

/-- V-ref: an unknown operation code. -/
theorem test_opr_unknown :
    refusalOf (exec (.opr 0x10#32) (holding 1#32 2#32 3#32)) = some (.unknownOperation 0x10#32) := by decide

/-- V-pri. -/
theorem test_adc_wraps :
    afterwards (exec (.adc 1#32) (holding 0x7FFFFFFF#32 2#32 3#32)) stack = some (0x80000000#32, 2#32, 3#32) := by decide

/-- V-pri: `ajw -4`. -/
theorem test_ajw : afterwards (exec (.ajw 0xFFFFFFFC#32) (holding 1#32 2#32 3#32)) (fun s => (s.wptr, stack s)) =
    some (0x80000FF0#32, 1#32, 2#32, 3#32) := by decide

/-- V-pri: `fcall 5`. -/
theorem test_fcall :
    refusalOf (exec (.fcall 5#32) (holding 1#32 2#32 3#32)) = some (.lostDefinition "fcall") := by decide

/-- V-cj: one step of `cj 6` at 80000100, taken. -/
theorem test_step_cj_taken :
    afterwards (step (running 0x80000100#32 [0xA6#8] (holding 0#32 7#32 9#32))) (fun s => (s.iptr, stack s)) =
      some (0x80000107#32, 0#32, 7#32, 9#32) := by decide

/-- V-cj: one step of `cj 6` at 80000100, not taken; all 32 bits of Areg are tested. -/
theorem test_step_cj_not_taken :
    afterwards (step (running 0x80000100#32 [0xA6#8] (holding 0x80000000#32 7#32 9#32))) (fun s => (s.iptr, stack s)) =
      some (0x80000101#32, 7#32, 9#32, 0x80000000#32) := by decide

/-- V-pri: `eqc -1`. -/
theorem test_eqc_equal :
    afterwards (exec (.eqc 0xFFFFFFFF#32) (holding 0xFFFFFFFF#32 2#32 3#32)) stack = some (1#32, 2#32, 3#32) := by decide

/-- V-pri: `eqc 0` of 2. -/
theorem test_eqc_different :
    afterwards (exec (.eqc 0#32) (holding 2#32 5#32 6#32)) stack = some (0#32, 5#32, 6#32) := by
  decide

/-- V-cj: `j 0` at FFFFFFFF: Iptr wraps. -/
theorem test_step_j_wraps :
    afterwards (step (running 0xFFFFFFFF#32 [0x00#8] (holding 1#32 2#32 3#32))) (fun s => (s.iptr, stack s)) =
      some (0x00000000#32, 1#32, 2#32, 3#32) := by decide

/-- R85, D17: bit 25 is timeslice_enable. -/
theorem test_j_under_timeslicing :
    refusalOf (exec (.j 0#32) (withStatus 0x02000000#32 (holding 1#32 2#32 3#32))) = some .timeslicing := by decide

/-- V-cj: `j -8` whose second component is at 80000109. -/
theorem test_step_j_backwards :
    afterwards (step { running 0x80000109#32 [0x08#8] (holding 1#32 2#32 3#32) with idv := 0xFFFFFFF0#32, prefixes := 1 })
      (fun s => (s.iptr, s.idv, s.prefixes)) = some (0x80000102#32, 0#32, 0) := by decide

/-- V-pri: `ldc -1`. -/
theorem test_ldc : afterwards (exec (.ldc 0xFFFFFFFF#32) (holding 1#32 2#32 3#32)) stack =
    some (0xFFFFFFFF#32, 1#32, 2#32) := by decide

/-- V-pri: `ldl -1`. -/
theorem test_ldl :
    afterwards (exec (.ldl 0xFFFFFFFF#32) (withData 0x80000FFC#32 5#32 (holding 1#32 2#32 3#32))) stack =
      some (5#32, 1#32, 2#32) := by decide

/-- V-pri: `ldlp 3`. -/
theorem test_ldlp : afterwards (exec (.ldlp 3#32) (holding 1#32 2#32 3#32)) stack =
    some (0x8000100C#32, 1#32, 2#32) := by decide

/-- V-pri: `ldnl 1`. -/
theorem test_ldnl :
    afterwards (exec (.ldnl 1#32) (withData 0x80002004#32 7#32 (holding 0x80002000#32 2#32 3#32))) stack =
      some (7#32, 2#32, 3#32) := by decide

/-- V-ref: `ldnl 0` with Areg = 80002002. -/
theorem test_ldnl_misaligned :
    faultOf (exec (.ldnl 0#32) (holding 0x80002002#32 2#32 3#32)) = some .misalignedAccess := by decide

/-- V-pri: `ldnlp -1`. -/
theorem test_ldnlp : afterwards (exec (.ldnlp 0xFFFFFFFF#32) (holding 0x80001008#32 2#32 3#32)) stack =
    some (0x80001004#32, 2#32, 3#32) := by decide

/-- V-pri: `stl 1`. -/
theorem test_stl :
    afterwards (exec (.stl 1#32) (withData 0x80001004#32 0x55555555#32 (holding 5#32 6#32 7#32)))
      (fun s => (s.areg, s.breg, Memory.read s.mem 0x80001004#32 4)) = some (6#32, 7#32, 5#32) := by decide

/-- V-ref: D0 with Wptr = 80000100 inside the program text. -/
theorem test_stl_into_the_text :
    refusalOf (exec (.stl 0#32) (withText { holding 1#32 2#32 3#32 with wptr := 0x80000100#32 })) = some .storeToCode := by
  decide

/-- V-pri: `stnl 3`. -/
theorem test_stnl :
    afterwards (exec (.stnl 3#32) (holding 0x80002000#32 9#32 4#32))
      (fun s => (s.areg, Memory.read s.mem 0x8000200C#32 4)) = some (4#32, 9#32) := by decide

/-- R39, D21: the word at the bottom of memory is reserved. -/
theorem test_stnl_reserved :
    faultOf (exec (.stnl 0#32) (holding 0x80000000#32 9#32 4#32)) = some .reservedAddress := by decide

/-- V-add: -1 + MostNeg. -/
theorem test_add_underflows :
    afterwards (exec .add (holding 0xFFFFFFFF#32 0x80000000#32 7#32)) stack = some (0x7FFFFFFF#32, 7#32, 0xFFFFFFFF#32) := by
  decide

/-- V-add: 1 + MostPos sets overflow, whatever the disputed writes are. -/
theorem test_add_sets_overflow :
    afterwards (exec .add (holding 1#32 0x7FFFFFFF#32 7#32)) (fun s => (s.areg, statusBit s.status .overflow)) =
      some (0x80000000#32, true) := by
  have h : statusBit (checkedStatus 0#32 (exactSum 1#32 0x7FFFFFFF#32) (Config.freeBit 0) (Config.freeBit 1)) .overflow =
      true := by
    rw [statusBit_checkedStatus_overflow]; decide
  exact congrArg (fun b => some (0x80000000#32, b)) h

/-- S8, R111. -/
theorem test_and : afterwards (exec .and (holding 0xFF00FF00#32 0x0FF00FF0#32 7#32)) stack =
    some (0x0F000F00#32, 7#32, 0xFF00FF00#32) := by decide

/-- V-stk. -/
theorem test_rot : afterwards (exec .rot (holding 1#32 2#32 3#32)) stack = some (2#32, 3#32, 1#32) := by decide

/-- V-stk. -/
theorem test_arot : afterwards (exec .arot (holding 1#32 2#32 3#32)) stack = some (3#32, 1#32, 2#32) := by decide

/-- V-stk. -/
theorem test_dup : afterwards (exec .dup (holding 1#32 2#32 3#32)) stack = some (1#32, 1#32, 2#32) := by decide

/-- V-stk. -/
theorem test_rev : afterwards (exec .rev (holding 1#32 2#32 3#32)) stack = some (2#32, 1#32, 3#32) := by decide

/-- R112, R124: -3 times 5. -/
theorem test_mul_signed : afterwards (exec .mul (holding 0xFFFFFFFD#32 5#32 7#32)) (fun s => s.areg) =
    some 0xFFFFFFF1#32 := by decide

/-- R113: 0xFFFFFFFF + 0 + carry is 2^32. -/
theorem test_addc_chains :
    afterwards (exec .addc (withStatus 0x00040000#32 (holding 0xFFFFFFFF#32 0#32 7#32))) (fun s => s.areg) =
      some 0#32 := by decide

/-- R114: only the arithmetic flags and the stack are written. -/
theorem test_subc_leaves_wptr : afterwards (exec .subc (holding 1#32 2#32 3#32)) (fun s => (s.wptr, s.ioreg)) =
    some (0x80001000#32, 0#32) := by decide

/-- V-misc. -/
theorem test_swap32 : afterwards (exec .swap32 (holding 0x12345678#32 2#32 3#32)) stack =
    some (0x78563412#32, 2#32, 3#32) := by decide

/-- R116: Status and Tdesc stay. -/
theorem test_gajw_leaves_status :
    afterwards (exec .gajw (withStatus 0x00040000#32 (holding 1#32 2#32 3#32))) (fun s => (s.status, s.tdesc)) =
      some (0x00040000#32, 0#32) := by decide

/-- R117: Wptr and Status stay. -/
theorem test_io_leaves_wptr : afterwards (exec .io (holding 1#32 2#32 3#32)) (fun s => (s.wptr, s.status)) =
    some (0x80001000#32, 0#32) := by decide

/-- R118: a push. -/
theorem test_ldprodid_pushes : afterwards (exec .ldprodid (holding 1#32 2#32 3#32)) (fun s => (s.breg, s.creg)) =
    some (1#32, 2#32) := by decide

/-- A saved process state with its carry set. -/
def interrupted : Context :=
  { areg := 11#32, breg := 12#32, creg := 13#32, iptr := 0x80000400#32, status := 0x000C0000#32, wptr := 0x80003000#32,
    tdesc := 0x80004000#32 }

/-- R142, R148: the end of an interrupt handler (Status.interrupt_mode is bit 20). -/
theorem test_eret :
    afterwards (exec .eret { withStatus 0x00100000#32 (holding 1#32 2#32 3#32) with saved := [interrupted] })
      (fun s => (stack s, s.iptr, s.status, s.wptr, s.tdesc)) =
      some ((11#32, 12#32, 13#32), 0x80000400#32, 0x000C0000#32, 0x80003000#32, 0x80004000#32) := by decide

/-- R119, R143: the controller is told at the end of an interrupt handler. -/
theorem test_eret_signals :
    afterwards (exec .eret { withStatus 0x00100000#32 (holding 1#32 2#32 3#32) with saved := [interrupted] })
      (fun s => s.controllerSignals) = some 1 := by decide

theorem test_mac : refusalOf (exec .mac (holding 1#32 2#32 3#32)) = some (.lostDefinition "mac") := by decide

theorem test_umac : refusalOf (exec .umac (holding 1#32 2#32 3#32)) = some (.lostDefinition "umac") := by decide

/-! ## Memory, values, Status -/

/-- V-mem: MemWrite(80002000, 4, A1B2C3D4), MemWrite(80002001, 1, FF), MemWrite(80002002, 2, 0102). -/
theorem test_memory_views :
    Memory.read (Memory.write (Memory.write (Memory.write [] 0x80002000#32 4 0xA1B2C3D4#32) 0x80002001#32 1 0xFF#32)
      0x80002002#32 2 0x0102#32) 0x80002000#32 4 = 0x0102FFD4#32 := by decide

/-- S15: the byte at X is the least significant. -/
theorem test_memory_little_endian :
    Memory.byte (Memory.write [] 0x80002000#32 4 0x12345678#32) 0x80002000#32 = 0x78#8 ∧
      Memory.byte (Memory.write [] 0x80002000#32 4 0x12345678#32) 0x80002003#32 = 0x12#8 := by decide

/-- S12. -/
theorem test_wordOffset : wordOffset 0x80002000#32 3#32 = 0x8000200C#32 := by decide

/-- S14, V-misc. -/
theorem test_sign_extension :
    signExtendByte 0xF6#8 = 0xFFFFFFF6#32 ∧ signExtendByte 0x7F#8 = 0x7F#32 ∧
      signExtendSixteen 0x8000#16 = 0xFFFF8000#32 ∧ signExtendSixteen 0x7FFF#16 = 0x7FFF#32 := by decide

/-- R9. -/
theorem test_int16 : int16 (-32768) 0x1234#16 = 0x8000#16 ∧ int16 32768 0x1234#16 = 0x1234#16 := by decide

/-- R9: the halves of a 48-bit value. -/
theorem test_words_of_48_bits :
    lowWordOf48 0xABCD12345678#48 = 0x12345678#32 ∧ highWordOf48 0xABCD12345678#48 = 0xABCD#16 := by decide

/-- R17: the places of the fields of Status. -/
theorem test_status_fields :
    macCount 0x000000FF#32 = 0xFF#8 ∧ macBuffer 0x00000700#32 = 7#3 ∧ macScale 0x00001800#32 = 3#2 ∧
      timesliceCount 0xFC000000#32 = 0x3F#6 ∧ statusBit 0x02000000#32 .timesliceEnable = true ∧
      statusBit 0x00004000#32 .globalInterruptEnable = true ∧ statusBit 0x00010000#32 .overflow = true ∧
      statusBit 0x00200000#32 .trapMode = true := by decide

/-! ## Between instructions -/

/-- An environment that presents an interrupt, with both enables set (bits 14 and 15). -/
def interruptible : State :=
  { withStatus 0x0000C000#32 (running 0x80000100#32 [0x41#8] (holding 1#32 2#32 3#32)) with pending := [.interrupt] }

/-- An environment that presents the timeslice trap inside an interrupt handler (bits 20 and 25). -/
def trappable : State :=
  { withStatus 0x02100000#32 (running 0x80000100#32 [0x41#8] (holding 1#32 2#32 3#32)) with pending := [.timesliceTrap] }

/-- R143: the local enable alone is not enough, and the instruction runs. -/
theorem test_interrupt_not_taken_when_disabled :
    afterwards (step (withStatus 0x00008000#32 interruptible)) (fun s => (s.areg, s.pending)) =
      some (1#32, [.interrupt]) := by decide

/-- R142: the process state is saved. -/
theorem test_interrupt_taken :
    afterwards (step interruptible) (fun s => (s.saved.map (fun c => (c.areg, c.iptr, c.wptr)), s.pending, s.ioreg)) =
      some ([(1#32, 0x80000100#32, 0x80001000#32)], [], 0#32) := by decide

/-- R53, D25: nothing comes between a prefix and the component it prefixes. -/
theorem test_no_interrupt_inside_an_instruction :
    afterwards (step { interruptible with idv := 0x10#32, prefixes := 1 }) (fun s => (s.areg, s.pending)) =
      some (0x11#32, [.interrupt]) := by decide

/-- R150: start_next_task is bit 24. -/
theorem test_process_switch :
    refusalOf (step (withStatus 0x01000000#32 (running 0x80000100#32 [0x41#8] (holding 1#32 2#32 3#32)))) =
      some .processSwitch := by decide

/-- R151: sleep is bit 22. -/
theorem test_sleep :
    refusalOf (step (withStatus 0x00400000#32 (running 0x80000100#32 [0x41#8] (holding 1#32 2#32 3#32)))) =
      some .sleepState := by decide

/-- R152, R171: no instruction is executed while timeslicing is on. -/
theorem test_timeslicing :
    refusalOf (step (withStatus 0x02000000#32 (running 0x80000100#32 [0x41#8] (holding 1#32 2#32 3#32)))) =
      some .timeslicing := by decide

/-- U7: the byte placed at a reserved address is not what a fetch reads there. -/
theorem test_fetch_of_reserved :
    fetchedByte (running 0x80000000#32 [0x41#8] (holding 1#32 2#32 3#32)) = byteOf (Config.freeWord 0) 0 := rfl

/-- R173. -/
theorem test_end_of_run :
    refusalOf (step { holding 1#32 2#32 3#32 with
      launch := { Launch.reset with endAddr := some 0x80000100#32 } }) = some .endOfRun := by decide

/-- The machine after reset with `ldc 1` placed for the next fetch. -/
theorem test_withFetchWord : afterwards (step (State.reset.withFetchWord 8 0x41)) (fun s => (s.areg, s.iptr)) =
    some (1#32, 1#32) := by decide

/-! ## Witnesses: the hypotheses of each statement that has some, met together -/

/-- The code 0xF9 (S9) is neither 4 nor 9. -/
theorem witness_SurvivingOperationCodesDecode :
    defaultFnTable.wf ∧ otherTable.wf ∧ (0xF9#32 : Word) ≠ 4#32 ∧ (0xF9#32 : Word) ≠ 9#32 := by decide

theorem witness_DecodeOfEncodeIsTheInstruction :
    otherTable.wf ∧ (Instr.wellFormed (.ldc 0x80000000#32) = true ∧ Instr.isPrefixing (.ldc 0x80000000#32) = false) ∧
      (Instr.wellFormed (.opr 0x10#32) = true ∧ Instr.isPrefixing (.opr 0x10#32) = false) ∧
      (Instr.wellFormed .add = true ∧ Instr.isPrefixing .add = false) := by decide

theorem witness_PrefixComponentsDecode :
    defaultFnTable.wf ∧ encode defaultFnTable (.pfix 0xF#4) = [0x2F#8] ∧
    encode defaultFnTable (.nfix 0x0#4) = [0x60#8] := by decide

theorem witness_EncodingIsShortest : decode defaultFnTable [0x20#8, 0x41#8] = .ok (.ldc 1#32, []) := rfl

/-- Seven prefixes and eight, the two sides of the limit. -/
theorem witness_SevenPrefixesAtMost :
    (∀ p ∈ List.replicate 8 (0x21#8 : Byte), componentFunction defaultFnTable p = .pfix ∨ componentFunction defaultFnTable p = .nfix) ∧
      componentFunction defaultFnTable 0x41#8 ≠ .pfix ∧ componentFunction defaultFnTable 0x41#8 ≠ .nfix ∧
      (List.replicate 7 (0x21#8 : Byte)).length ≤ 7 ∧ 7 < (List.replicate 8 (0x21#8 : Byte)).length := by decide

theorem witness_DecodedComponentsAreWellFormed : BitVec.extractLsb' 0 4 (0xFFFFFFF0#32 : Word) = 0#4 := by decide

/-- Between instructions with a prefix next, and inside an instruction with its last component next. -/
theorem witness_StepRunsTheDecodedComponent :
    (Quiet (running 0x80000100#32 [0x21#8, 0x41#8] (holding 1#32 2#32 3#32)) ∧
      inRegions Launch.reset.memMap 0x80000100#32 = true ∧ inRegions Launch.reset.reserved 0x80000100#32 = false ∧
      inRegions Launch.reset.reserved 0x800000FF#32 = true ∧
    (decodeComponent defaultFnTable 0#32 0x21#8).isPrefixing = true) ∧
    Quiet { interruptible with idv := 0x10#32, prefixes := 1 } ∧
      (decodeComponent defaultFnTable 0x10#32 0x41#8).isPrefixing = false := by
  unfold Quiet NoTimeslice NotEnded NoSchedule NoException; decide

theorem witness_StepsRunTheWholeInstruction :
    IdvZero (running 0x80000100#32 [0x21#8, 0x41#8] (holding 1#32 2#32 3#32)) ∧
      Quiet (running 0x80000100#32 [0x21#8, 0x41#8] (holding 1#32 2#32 3#32)) ∧
      CodeAt (running 0x80000100#32 [0x21#8, 0x41#8] (holding 1#32 2#32 3#32)) [0x21#8, 0x41#8] ∧
      decode defaultFnTable [0x21#8, 0x41#8] = .ok (.ldc 17#32, []) := by
  refine ⟨⟨rfl, rfl⟩, ?_, ?_, rfl⟩
  · unfold Quiet NoTimeslice NotEnded NoSchedule NoException; decide
  · have h0 : Memory.byte (running 0x80000100#32 [0x21#8, 0x41#8] (holding 1#32 2#32 3#32)).mem 0x80000100#32 = 0x21#8 := by
      decide
    have h1 : Memory.byte (running 0x80000100#32 [0x21#8, 0x41#8] (holding 1#32 2#32 3#32)).mem 0x80000101#32 = 0x41#8 := by
      decide
    intro k h
    match k with
    | 0 => exact ⟨h0, rfl, rfl⟩
    | 1 => exact ⟨h1, rfl, rfl⟩
    | k + 2 => exact absurd h (by simp)

/-- A step inside an instruction, from a state that meets the invariant. -/
theorem witness_StepKeepsTheInvariant :
    Inv { interruptible with idv := 0x10#32, prefixes := 1 } ∧
      ∃ t, step { interruptible with idv := 0x10#32, prefixes := 1 } = .next t := by
  refine ⟨?_, _, rfl⟩
  unfold Inv; decide

theorem witness_StepKeepsTheLaunch : ∃ t, step interruptible = .next t := ⟨_, rfl⟩

/-- A launch that admits one region, and Iptr just past it. -/
theorem witness_FetchOutsideMemMapFaults :
    Quiet { holding 1#32 2#32 3#32 with
      launch := { Launch.reset with memMap := [{ base := 0x80000000#32, size := 256 }] } } ∧
      inRegions [{ base := 0x80000000#32, size := 256 }] (holding 1#32 2#32 3#32).iptr = false := by
  unfold Quiet NoTimeslice NotEnded NoSchedule NoException; decide

theorem witness_FetchWordRunsNext :
    (State.reset.withFetchWord 8 (0x41#8 : Byte).toNat).prefixes = 0 ∧ (0x41#8 : Byte).toNat < 2 ^ 8 := by decide

/-- Six prefixes taken, and seven. -/
theorem witness_PrefixBuildsTheDataValue :
    { holding 1#32 2#32 3#32 with prefixes := 6 }.prefixes < 7 ∧
    7 ≤ { holding 1#32 2#32 3#32 with prefixes := 7 }.prefixes := by
  decide

/-- Six prefixes taken, and seven. -/
theorem witness_NegativePrefixComplementsTheDataValue :
    { trappable with prefixes := 6 }.prefixes < 7 ∧ 7 ≤ { trappable with prefixes := 7 }.prefixes := by decide

/-- The two rows the spec gives, a row the launch adds, one of a lost definition, one that names no secondary instruction, and no row. -/
theorem witness_OperateExecutesTheSelectedInstruction :
    opCode 4#32 = some .add ∧ opCode 9#32 = some .and ∧ operationOf withOperations.launch 0x18#32 = some .rot ∧
      Instr.isSecondary .rot = true ∧ operationOf withOperations.launch 0x19#32 = some (.j 0#32) ∧
      Instr.isSecondary (.j 0#32) = false ∧ operationOf withOperations.launch 0x1A#32 = some .mul ∧
      Instr.lostOperation .mul = true ∧ withOperations.launch.runLost = false ∧ Instr.lostOperation .rot = false ∧
      operationOf withOperations.launch 5#32 = none ∧
      operationOf withOperations.launch 0xF9#32 = none := by decide

theorem witness_ConditionalJumpOnZero :
    (holding 0#32 2#32 3#32).areg = 0#32 ∧ (holding 0x80000000#32 2#32 3#32).areg ≠ 0#32 := by decide

/-- Timeslicing off, and on. -/
theorem witness_JumpAddsToIptr :
    NoTimeslice (holding 1#32 2#32 3#32) ∧ ¬ NoTimeslice (withStatus 0x02000000#32 (holding 1#32 2#32 3#32)) := by
  unfold NoTimeslice; decide

theorem witness_EqualsConstantGivesABoolean :
    (holding 17#32 2#32 3#32).areg = 17#32 ∧ (holding 0x80000011#32 2#32 3#32).areg ≠ 17#32 := by decide

/-- The first word above the reserved addresses, and the word at the top of the address map. -/
theorem witness_LoadLocalPushesTheWord :
    WordAdmitted { holding 1#32 2#32 3#32 with wptr := 0x80000100#32 } (wordOffset 0x80000100#32 0#32) ∧
      WordAdmitted { holding 1#32 2#32 3#32 with wptr := 0x80000000#32 } (wordOffset 0x80000000#32 0xFFFFFFFF#32) := by
  unfold WordAdmitted MemAdmitted; decide

theorem witness_LoadNonLocalReplacesAreg :
    WordAdmitted (holding 0x80000100#32 2#32 3#32) (wordOffset 0x80000100#32 0#32) := by
  unfold WordAdmitted MemAdmitted; decide

/-- The last word below the program text, and the first above it. -/
theorem witness_StoreLocalWritesTheWord :
    (WordAdmitted (withText { holding 1#32 2#32 3#32 with wptr := 0x80000200#32 }) (wordOffset 0x80000200#32 0#32) ∧
      TextFixed (withText { holding 1#32 2#32 3#32 with wptr := 0x80000200#32 }) (wordOffset 0x80000200#32 0#32) 4) ∧
    WordAdmitted { holding 1#32 2#32 3#32 with wptr := 0x80000100#32 } (wordOffset 0x80000100#32 0#32) ∧
      TextFixed { holding 1#32 2#32 3#32 with wptr := 0x80000100#32 } (wordOffset 0x80000100#32 0#32) 4 := by
  unfold WordAdmitted MemAdmitted TextFixed; decide

theorem witness_StoreNonLocalWritesTheWord :
    WordAdmitted (withText (holding 0x80000200#32 2#32 3#32)) (wordOffset 0x80000200#32 0#32) ∧
      TextFixed (withText (holding 0x80000200#32 2#32 3#32)) (wordOffset 0x80000200#32 0#32) 4 := by
  unfold WordAdmitted MemAdmitted TextFixed; decide

/-- A launch whose memory ends at 0x80001000. -/
def smallMemory : Launch := { Launch.reset with memMap := [{ base := 0x80000000#32, size := 4096 }] }

/-- A misaligned word; the first word past the memory; the last reserved word. -/
theorem witness_InadmissibleWordAccessFaults :
    (wordOffset (holding 0x80002003#32 2#32 3#32).areg 0#32).toNat % 4 ≠ 0 ∧
      ((wordOffset 0x80001000#32 0#32).toNat % 4 = 0 ∧
        ∃ k < 4, inRegions smallMemory.memMap (wordOffset 0x80001000#32 0#32 + BitVec.ofNat 32 k) = false) ∧
      (wordOffset 0x800000FC#32 0#32).toNat % 4 = 0 ∧
        (∀ k < 4, inRegions smallMemory.memMap (wordOffset 0x800000FC#32 0#32 + BitVec.ofNat 32 k) = true) ∧
        ∃ k < 4, inRegions smallMemory.reserved (wordOffset 0x800000FC#32 0#32 + BitVec.ofNat 32 k) = true := by decide

theorem witness_WordInstructionsNeedAdmittedAddresses :
    (∃ t, exec (.ldl 0#32) (holding 0x80002000#32 2#32 3#32) = .next t) ∧
      (∃ t, exec (.ldnl 0#32) (holding 0x80002000#32 2#32 3#32) = .next t) ∧
      (∃ t, exec (.stl 0#32) (holding 0x80002000#32 2#32 3#32) = .next t) ∧
      (∃ t, exec (.stnl 0#32) (holding 0x80002000#32 2#32 3#32) = .next t) :=
  ⟨⟨_, rfl⟩, ⟨_, rfl⟩, ⟨_, rfl⟩, ⟨_, rfl⟩⟩

/-- The last word of the program text. -/
theorem witness_StoreIntoTheProgramTextIsRefused :
    WordAdmitted (withText { holding 0x800001FC#32 2#32 3#32 with wptr := 0x800001FC#32 }) (wordOffset 0x800001FC#32 0#32) ∧
      ¬ TextFixed (withText { holding 0x800001FC#32 2#32 3#32 with wptr := 0x800001FC#32 })
        (wordOffset 0x800001FC#32 0#32) 4 := by
  unfold WordAdmitted MemAdmitted TextFixed; decide

theorem witness_StackManipulationsCompose :
    (∃ t, exec .rot (holding 1#32 2#32 3#32) = .next t) ∧ (∃ t, exec .arot (holding 1#32 2#32 3#32) = .next t) ∧
      ∃ t, exec .rev (holding 1#32 2#32 3#32) = .next t :=
  ⟨⟨_, rfl⟩, ⟨_, rfl⟩, ⟨_, rfl⟩⟩

/-- Exact sums at and next to MostPos and MostNeg. -/
theorem witness_AddGivesTheCheckedSum :
    (2147483647 : Int) < BitVec.toInt 0x7FFFFFFF#32 + BitVec.toInt 1#32 ∧
      BitVec.toInt 0x7FFFFFFF#32 + BitVec.toInt 0#32 = 2147483647 ∧
      BitVec.toInt 0x80000000#32 + BitVec.toInt 0#32 = -2147483648 ∧
      BitVec.toInt 0x80000000#32 + BitVec.toInt 0xFFFFFFFF#32 < -2147483648 := by decide

/-- Exact products at and beyond MostPos and MostNeg. -/
theorem witness_MultiplyGivesTheCheckedProduct :
    (2147483647 : Int) < BitVec.toInt 0x80000000#32 * BitVec.toInt 0xFFFFFFFF#32 ∧
      BitVec.toInt 0x80000000#32 * BitVec.toInt 1#32 = -2147483648 ∧
      BitVec.toInt 0x7FFFFFFF#32 * BitVec.toInt 1#32 = 2147483647 ∧
      BitVec.toInt 0x80000000#32 * BitVec.toInt 2#32 < -2147483648 := by decide

/-- With a process state saved and with none; in each of the modes of R144. -/
theorem witness_ExceptionReturnRestoresTheProcessState :
    { holding 1#32 2#32 3#32 with saved := [interrupted] }.saved = interrupted :: [] ∧
      (holding 1#32 2#32 3#32).saved = [] ∧
      (statusBit 0x00100000#32 .interruptMode = true ∧ statusBit 0x00100000#32 .trapMode = false) ∧
      (statusBit 0x00080000#32 .userMode = true ∧ statusBit 0x00080000#32 .interruptMode = false) ∧
      (statusBit 0x00300000#32 .userMode = false ∧ statusBit 0x00300000#32 .trapMode = true) ∧
      (statusBit 0x00180000#32 .userMode = true ∧ statusBit 0x00180000#32 .interruptMode = true) := by decide

/-- A step that takes an interrupt, and one that takes the timeslice trap. -/
theorem witness_ExceptionsAreTakenOnlyWhenEnabled :
    (∃ t, step interruptible = .next t ∧ t.pending ≠ interruptible.pending) ∧
      ∃ t, step trappable = .next t ∧ t.pending ≠ trappable.pending :=
  ⟨⟨_, rfl, by decide⟩, _, rfl, by decide⟩

theorem witness_ExceptionEntrySavesAndSetsTheModes :
    (interruptible.prefixes = 0 ∧ NotEnded interruptible ∧ NoSchedule interruptible ∧
      interruptible.pending = .interrupt :: [] ∧ canTake interruptible.status .interrupt = true) ∧
    trappable.prefixes = 0 ∧ NotEnded trappable ∧ NoSchedule trappable ∧
      trappable.pending = .timesliceTrap :: [] ∧ canTake trappable.status .timesliceTrap = true := by
  unfold NotEnded NoSchedule; decide

/-- The handler's own state, still holding what its entry saved. -/
theorem witness_ExceptionsPreserveTheProcessState :
    { holding 9#32 9#32 9#32 with saved := (takeException .interrupt interruptible).saved }.saved =
      (takeException .interrupt interruptible).saved := rfl

/-- The hypothesis of CompletingIsIndependentOfTheMode, and instructions that do not meet it. -/
theorem witness_CompletingIsIndependentOfTheMode :
    Instr.eret.unconditional = true ∧ (Instr.ldc 1#32).unconditional = true ∧ Instr.mac.unconditional = false := by decide

/-- `addc` sets the carry (bit 18), and an exception return restores it. -/
theorem witness_CarryIsWrittenByLongArithmeticOnly :
    (∃ t, exec .addc (holding 0xFFFFFFFF#32 1#32 3#32) = .next t ∧
      statusBit t.status .carry ≠ statusBit (holding 0xFFFFFFFF#32 1#32 3#32).status .carry) ∧
    ∃ t, exec .eret { holding 1#32 2#32 3#32 with saved := [interrupted] } = .next t ∧
      statusBit t.status .carry ≠ statusBit (holding 1#32 2#32 3#32).status .carry := by
  refine ⟨⟨_, rfl, ?_⟩, _, rfl, by decide⟩
  have h : statusBit (setStatusBit (undefinedFlags 0#32 (Config.freeBit 0) (Config.freeBit 1)) .carry
      (carryOut 0xFFFFFFFF#32 1#32 0#32)) .carry = true := by
    rw [statusBit_setStatusBit_self]; decide
  exact fun e => absurd (h.symm.trans e) (by decide)

theorem witness_WptrIsMovedByItsInstructionsOnly :
    ∃ t, exec (.ajw 1#32) (holding 1#32 2#32 3#32) = .next t ∧ t.wptr ≠ (holding 1#32 2#32 3#32).wptr :=
  ⟨_, rfl, by decide⟩

/-- An exception return writes Tdesc; `io` writes IOreg whatever its free values are, from a state that holds the opposite. -/
theorem witness_TdescAndIOregHaveTheirWriters :
    (∃ t, exec .eret { holding 1#32 2#32 3#32 with saved := [interrupted] } = .next t ∧
      t.tdesc ≠ (holding 1#32 2#32 3#32).tdesc) ∧
    ∃ s t, exec .io s = .next t ∧ t.ioreg ≠ s.ioreg := by
  refine ⟨⟨_, rfl, by decide⟩, ⟨{ holding 1#32 2#32 3#32 with
    ioreg := ~~~ ioWord (inputData (Config.freeWord 3)) (outputData (Config.freeWord 4)) }, _, rfl, ?_⟩⟩
  show ioWord (inputData (Config.freeWord 3)) (outputData (Config.freeWord 4)) ≠
    ~~~ ioWord (inputData (Config.freeWord 3)) (outputData (Config.freeWord 4))
  generalize ioWord (inputData (Config.freeWord 3)) (outputData (Config.freeWord 4)) = w
  intro h
  have := congrArg (fun v => BitVec.getLsbD v 0) h
  simp at this

/-- `stl` and `stnl` over a byte that holds something else. -/
theorem witness_MemoryIsWrittenByStoresOnly :
    (∃ t, exec (.stl 0#32) (withData 0x80001000#32 0#32 (holding 5#32 6#32 7#32)) = .next t ∧
      Memory.byte t.mem 0x80001000#32 ≠ Memory.byte (withData 0x80001000#32 0#32 (holding 5#32 6#32 7#32)).mem
        0x80001000#32) ∧
    ∃ t, exec (.stnl 0#32) (withData 0x80002000#32 0#32 (holding 0x80002000#32 6#32 7#32)) = .next t ∧
      Memory.byte t.mem 0x80002000#32 ≠ Memory.byte (withData 0x80002000#32 0#32
        (holding 0x80002000#32 6#32 7#32)).mem 0x80002000#32 :=
  ⟨⟨_, rfl, by decide⟩, _, rfl, by decide⟩

theorem witness_DataValueIsClearBetweenInstructions :
    Quiet { interruptible with idv := 0x10#32, prefixes := 1 } ∧
      (∃ t, step { interruptible with idv := 0x10#32, prefixes := 1 } = .next t) ∧
      (decodeComponent defaultFnTable 0x10#32 0x41#8).isPrefixing = false := by
  refine ⟨?_, ⟨_, rfl⟩, by decide⟩
  unfold Quiet NoTimeslice NotEnded NoSchedule NoException; decide

/-- A word across the top of the address map, its last byte, and the first byte past it. -/
theorem witness_MemoryViewsAreLittleEndian :
    ((4 = 1 ∨ 4 = 2 ∨ 4 = 4) ∧ 3 < 4) ∧ ∀ k < 4, (0x80000001#32 : Word) ≠ 0x7FFFFFFD#32 + BitVec.ofNat 32 k := by decide

/-- EndAddr reached; sleep due; the scheduler due; timeslicing with nothing before it. -/
theorem witness_StepStopsInPlaceOfAnInstruction :
    (({ Launch.reset with endAddr := some 0x80000100#32 } : Launch).endAddr = some (holding 1#32 2#32 3#32).iptr) ∧
      (NotEnded (withStatus 0x00400000#32 (holding 1#32 2#32 3#32)) ∧ statusBit 0x00400000#32 .sleep = true) ∧
      (statusBit 0x01000000#32 .sleep = false ∧ statusBit 0x01000000#32 .startNextTask = true) ∧
      (withStatus 0x02000000#32 interruptible).pending.head? = some .interrupt ∧
      canTake 0x02000000#32 .interrupt = false ∧ NoSchedule (withStatus 0x02000000#32 interruptible) ∧
      NotEnded (withStatus 0x02000000#32 interruptible) ∧ statusBit 0x02000000#32 .timesliceEnable = true := by
  unfold NotEnded NoSchedule; decide

/-- `add` completes and changes overflow, and is not `eret`. -/
theorem witness_StatusBitsHaveTheirWriters :
    (∃ t, step interruptible = .next t) ∧
    ∃ t, exec .add (holding 1#32 0x7FFFFFFF#32 7#32) = .next t ∧
      ¬ ExecutesAs .add (holding 1#32 0x7FFFFFFF#32 7#32) .eret ∧
      statusBit t.status .overflow ≠ statusBit (holding 1#32 0x7FFFFFFF#32 7#32).status .overflow := by
  refine ⟨⟨_, rfl⟩, _, rfl, ?_, ?_⟩
  · rintro (h | ⟨n, h, -⟩) <;> cases h
  · have h : statusBit (checkedStatus 0#32 (exactSum 1#32 0x7FFFFFFF#32) (Config.freeBit 0) (Config.freeBit 1)) .overflow =
        true := by
      rw [statusBit_checkedStatus_overflow]; decide
    exact fun e => absurd (h.symm.trans e) (by decide)

theorem witness_CountOfFreeValuesNeverFalls : ∃ t, step interruptible = .next t := ⟨_, rfl⟩

theorem witness_WordReadsBackAsWritten : (3 : Nat) < 4 ∧ (0 : Nat) < 4 := by decide

theorem witness_WordOffsetKeepsTheAlignment : aligned 0x7FFFFFFC#32 4 = true := by decide

theorem witness_SignExtensionCopiesTheSignBit : (31 : Nat) < 32 ∧ ¬ (31 : Nat) < 8 ∧ ¬ (31 : Nat) < 16 ∧
    (7 : Nat) < 8 := by
  decide

end Sys2Proof.Tests
end

section
/-! PROOFS. Memory: what the bytes of a read and of a write are, and how a word offset moves an address
(spec/20_memory.md R33, R34, R37, R38). -/

namespace Sys2Proof.Machine

/-! ## Consecutive addresses -/

theorem add_one_add_ofNat (a : Word) (k : Nat) : a + 1#32 + BitVec.ofNat 32 k = a + BitVec.ofNat 32 (k + 1) := by
  rw [Nat.add_comm k 1, BitVec.ofNat_add, BitVec.add_assoc]

/-- The addresses above `a` come back to `a` only after the whole 2^32 bytes (R31). -/
theorem ne_add_ofNat {a : Word} {k : Nat} (hpos : 0 < k) (hlt : k < 4294967296) : a ≠ a + BitVec.ofNat 32 k := by
  intro h
  have hk : k % 2 ^ 32 = 0 := by simpa using congrArg BitVec.toNat (left_eq_add.1 h)
  omega

/-! ## The bytes of a read (R33, R34) -/

theorem Memory.toNat_read_lt (m : Memory) (a : Word) (n : Nat) : (Memory.read m a n).toNat < 2 ^ (8 * n) := by
  induction n generalizing a with
  | zero => simp
  | succ n ih =>
    have hbyte : (Memory.byte m a).toNat < 2 ^ (8 * (n + 1)) :=
      (Memory.byte m a).isLt.trans_le (Nat.pow_le_pow_right (by decide) (by omega))
    have hrest : (Memory.read m (a + 1#32) n <<< 8).toNat < 2 ^ (8 * (n + 1)) := by
      rw [BitVec.toNat_shiftLeft, Nat.shiftLeft_eq, Nat.mul_add_one 8 n, Nat.pow_add]
      exact (Nat.mod_le _ _).trans_lt (Nat.mul_lt_mul_of_pos_right (ih _) (by decide))
    rw [Memory.read_succ, BitVec.toNat_or, BitVec.toNat_setWidth_of_le (by decide)]
    exact Nat.or_lt_two_pow hbyte hrest

/-- Inside a word, the byte at the lowest address is the least significant one (R33). -/
theorem Memory.toNat_read_succ (m : Memory) (a : Word) {n : Nat} (hn : n < 4) :
    (Memory.read m a (n + 1)).toNat = (Memory.byte m a).toNat + 256 * (Memory.read m (a + 1#32) n).toNat := by
  have hrest : (Memory.read m (a + 1#32) n).toNat < 2 ^ 24 :=
    (Memory.toNat_read_lt m _ n).trans_le (Nat.pow_le_pow_right (by decide) (by omega))
  rw [Memory.read_succ, BitVec.toNat_or, BitVec.toNat_setWidth_of_le (by decide), BitVec.toNat_shiftLeft,
    Nat.mod_eq_of_lt (by rw [Nat.shiftLeft_eq]; omega), Nat.or_comm,
    ← Nat.shiftLeft_add_eq_or_of_lt (Memory.byte m a).isLt, Nat.shiftLeft_eq]
  omega

theorem Memory.toNat_read (m : Memory) (a : Word) {n : Nat} (hn : n ≤ 4) :
    (Memory.read m a n).toNat =
      ((List.range n).map (fun k => (Memory.byte m (a + BitVec.ofNat 32 k)).toNat * 256 ^ k)).sum := by
  induction n generalizing a with
  | zero => simp
  | succ n ih =>
    rw [Memory.toNat_read_succ m a hn, ih (a + 1#32) (by omega), List.sum_range_succ', ← List.sum_map_mul_left]
    simp [add_one_add_ofNat, Nat.pow_succ, Nat.mul_assoc, Nat.mul_left_comm, Nat.mul_comm 256]

/-! ## The bytes of a write (R33, R34) -/

theorem Memory.byte_write_outside {n : Nat} (m : Memory) {a b : Word} (v : Word)
    (h : ∀ k < n, b ≠ a + BitVec.ofNat 32 k) : Memory.byte (Memory.write m a n v) b = Memory.byte m b := by
  induction n generalizing m a v with
  | zero => simp
  | succ n ih =>
    have hhead : b ≠ a := by simpa using h 0 (by omega)
    have htail : ∀ k < n, b ≠ a + 1#32 + BitVec.ofNat 32 k := fun k hk =>
      add_one_add_ofNat a k ▸ h (k + 1) (by omega)
    rw [Memory.write_succ, ih _ _ htail, Memory.byte_setByte_of_ne m _ hhead]

/-- A write no longer than the address space never comes round to a byte it has stored. -/
theorem Memory.byte_write_inside {n k : Nat} (m : Memory) (a v : Word) (hn : n ≤ 4294967296) (hk : k < n) :
    Memory.byte (Memory.write m a n v) (a + BitVec.ofNat 32 k) = byteOf v k := by
  induction n generalizing m a v k with
  | zero => omega
  | succ n ih =>
    rw [Memory.write_succ]
    cases k with
    | zero =>
      have hfirst : ∀ j < n, a ≠ a + 1#32 + BitVec.ofNat 32 j := fun j hj =>
        add_one_add_ofNat a j ▸ ne_add_ofNat (by omega) (by omega)
      simp [Memory.byte_write_outside _ _ hfirst]
    | succ k =>
      rw [← add_one_add_ofNat a k, ih _ _ _ (by omega) (by omega), byteOf_shiftRight]

/-! ## Word offsets (R32, R37) -/

theorem toNat_wordOffset (base x : Word) :
    (wordOffset base x).toNat = (base.toNat + 4 * x.toNat) % 4294967296 := by
  simp [wordOffset]

theorem toNat_byteSelector (a : Word) : (byteSelector a).toNat = a.toNat % 4 := by
  simp [byteSelector]

/-- Word-aligned is a byte selector of zero (R35). -/
theorem aligned_four_iff (a : Word) : aligned a 4 = true ↔ byteSelector a = 0#2 := by
  simp [aligned, ← BitVec.toNat_inj, toNat_byteSelector]

@[simp] theorem byteSelector_wordOffset (base x : Word) : byteSelector (wordOffset base x) = byteSelector base := by
  apply BitVec.eq_of_toNat_eq
  rw [toNat_byteSelector, toNat_byteSelector, toNat_wordOffset]
  omega

/-! ## The obligations of the family -/

/-- Settles O53: a read gathers its bytes with the least significant at the lowest address, a write stores them so and
leaves the rest. -/
theorem memoryViewsAreLittleEndian : Obligations.MemoryViewsAreLittleEndian := by
  unfold Obligations.MemoryViewsAreLittleEndian
  intro m a v n hsize
  have hn : n ≤ 4 := by omega
  exact ⟨Memory.toNat_read m a hn, fun k hk => Memory.byte_write_inside m a v (by omega) hk,
    fun b hb => Memory.byte_write_outside m v hb⟩

/-- Settles O55: the offset's signed and unsigned readings differ by a multiple of 2^32. -/
theorem wordOffsetIsFourBytes : Obligations.WordOffsetIsFourBytes := by
  unfold Obligations.WordOffsetIsFourBytes
  intro base x
  have hsigned : x.toInt % 4294967296 = x.toNat % 4294967296 := by
    rw [BitVec.toInt_eq_toNat_bmod]
    exact Int.bmod_emod
  rw [toNat_wordOffset]
  omega

/-- Settles O56: four bytes a word leave the byte selector alone, and alignment is a byte selector of zero. -/
theorem wordOffsetKeepsTheAlignment : Obligations.WordOffsetKeepsTheAlignment := by
  unfold Obligations.WordOffsetKeepsTheAlignment
  intro base x
  refine ⟨byteSelector_wordOffset base x, fun h => ?_⟩
  rw [aligned_four_iff] at h ⊢
  rw [byteSelector_wordOffset, h]

end Sys2Proof.Machine
end

section
/-! PROOFS. Primary instructions: the jump and the pop that `cj` chooses between (spec/41_primary.md R83). -/

namespace Sys2Proof.Machine

/-! ## What a jump and a pop do -/

theorem toNat_jumpBy_iptr (s : State) (n : Word) :
    (s.jumpBy n).iptr.toNat = (s.iptr.toNat + n.toNat) % 4294967296 := by
  rw [State.jumpBy_iptr, BitVec.toNat_add]

theorem jumpBy_systemUnchanged (s : State) (n : Word) : SystemUnchanged s (s.jumpBy n) := by
  simp [SystemUnchanged]

theorem jumpBy_memoryUnchanged (s : State) (n : Word) : MemoryUnchanged s (s.jumpBy n) := by
  simp [MemoryUnchanged]

theorem popLeaving_onlyStackChanged (s : State) (c : Word) : OnlyStackChanged s (s.popLeaving c) := by
  simp [OnlyStackChanged, SystemUnchanged, MemoryUnchanged]

/-! ## The two branches of `cj` (R83) -/

theorem exec_cj_of_zero {s : State} (h : s.areg = 0#32) (n : Word) : exec (.cj n) s = .next (s.jumpBy n) :=
  if_pos h

theorem exec_cj_of_ne_zero {s : State} (h : s.areg ≠ 0#32) (n : Word) :
    exec (.cj n) s = .next (s.popLeaving s.areg) :=
  if_neg h

/-! ## The obligation of the family -/

/-- Settles O21: a zero Areg takes the jump and keeps the stack, any other pops with the old Areg left in Creg. -/
theorem conditionalJumpOnZero : Obligations.ConditionalJumpOnZero := by
  unfold Obligations.ConditionalJumpOnZero
  intro n s
  by_cases hzero : s.areg = 0#32
  · exact ⟨s.jumpBy n, exec_cj_of_zero hzero n, fun _ => ⟨toNat_jumpBy_iptr s n, rfl, rfl, rfl⟩,
      fun hne => absurd hzero hne, rfl, rfl, jumpBy_systemUnchanged s n, jumpBy_memoryUnchanged s n⟩
  · obtain ⟨hiptr, hwptr, hstatus, hsystem, hmem⟩ := popLeaving_onlyStackChanged s s.areg
    exact ⟨s.popLeaving s.areg, exec_cj_of_ne_zero hzero n, fun h => absurd h hzero,
      fun _ => ⟨hiptr, rfl, rfl, rfl⟩, hwptr, hstatus, hsystem, hmem⟩

end Sys2Proof.Machine
end

section
/-! PROOFS. Stack manipulation: the push, the pop and the rewriting of the stack that the four instructions of Table 4.2
are made of (spec/42_stack_manipulation.md R100 to R103). -/

namespace Sys2Proof.Machine

/-! ## The stack after a push, a pop and a rewriting (R11 to R13) -/

theorem push_stackIs (s : State) (v : Word) : StackIs (s.push v) v s.areg s.breg :=
  ⟨State.push_areg s v, State.push_breg s v, State.push_creg s v⟩

theorem popLeaving_stackIs (s : State) (c : Word) : StackIs (s.popLeaving c) s.breg s.creg c :=
  ⟨State.popLeaving_areg s c, State.popLeaving_breg s c, State.popLeaving_creg s c⟩

theorem setStack_stackIs (s : State) (a b c : Word) : StackIs (s.setStack a b c) a b c :=
  ⟨State.setStack_areg s a b c, State.setStack_breg s a b c, State.setStack_creg s a b c⟩

/-! ## Their frames -/

theorem push_onlyStackChanged (s : State) (v : Word) : OnlyStackChanged s (s.push v) := by
  simp [OnlyStackChanged, SystemUnchanged, MemoryUnchanged]

theorem setStack_onlyStackChanged (s : State) (a b c : Word) : OnlyStackChanged s (s.setStack a b c) := by
  simp [OnlyStackChanged, SystemUnchanged, MemoryUnchanged]

/-! ## What each instruction does (R100 to R103) -/

theorem exec_rot (s : State) : exec .rot s = .next (s.popLeaving s.areg) := rfl
theorem exec_arot (s : State) : exec .arot s = .next (s.push s.creg) := rfl
theorem exec_dup (s : State) : exec .dup s = .next (s.push s.areg) := rfl
theorem exec_rev (s : State) : exec .rev s = .next (s.setStack s.breg s.areg s.creg) := rfl

/-! ## The obligation of the family -/

/-- Settles O32: `rot` pops with the old Areg left in Creg, `arot` pushes Creg, `dup` pushes Areg and `rev` rewrites the
stack with its two upper values exchanged; none of the three operations reaches outside the stack. -/
theorem stackManipulationTable : Obligations.StackManipulationTable := by
  unfold Obligations.StackManipulationTable
  intro s
  refine ⟨?rot, ?arot, ?dup, ?rev⟩
  case rot => exact ⟨_, exec_rot s, popLeaving_stackIs s s.areg, popLeaving_onlyStackChanged s s.areg⟩
  case arot => exact ⟨_, exec_arot s, push_stackIs s s.creg, push_onlyStackChanged s s.creg⟩
  case dup => exact ⟨_, exec_dup s, push_stackIs s s.areg, push_onlyStackChanged s s.areg⟩
  case rev =>
    exact ⟨_, exec_rev s, setStack_stackIs s s.breg s.areg s.creg, setStack_onlyStackChanged s s.breg s.areg s.creg⟩

end Sys2Proof.Machine
end

section
/-! PROOFS. Secondary named operations: the bitwise AND of `and` and the bits of a sign extension
(spec/43_secondary_named.md R111, R122). -/

namespace Sys2Proof.Machine

/-! ## What `and` does (R111) -/

theorem exec_and (s : State) : exec .and s = .next (s.setStack (s.breg &&& s.areg) s.creg s.areg) := rfl

/-! ## The bits of a sign extension (R122) -/

/-- Widening a value of `m + 1` bits to a word puts its sign bit, bit `m`, into each new bit. -/
theorem getLsbD_signExtend_word {m k : Nat} (v : BitVec (m + 1)) (hk : k < 32) :
    (v.signExtend 32).getLsbD k = if k < m + 1 then v.getLsbD k else v.getLsbD m := by
  rw [BitVec.getLsbD_signExtend, BitVec.msb_eq_getLsbD_last, decide_eq_true hk, Bool.true_and, Nat.add_sub_cancel]

theorem getLsbD_signExtendByte (v : Byte) {k : Nat} (hk : k < 32) :
    (signExtendByte v).getLsbD k = if k < 8 then v.getLsbD k else v.getLsbD 7 :=
  getLsbD_signExtend_word v hk

theorem getLsbD_signExtendSixteen (v : BitVec 16) {k : Nat} (hk : k < 32) :
    (signExtendSixteen v).getLsbD k = if k < 16 then v.getLsbD k else v.getLsbD 15 :=
  getLsbD_signExtend_word v hk

/-! ## The obligations of the family -/

/-- Settles O35: `and` rewrites the stack alone, with the AND of Breg and Areg above the old Creg and the old Areg. -/
theorem andIsBitwiseAndRotates : Obligations.AndIsBitwiseAndRotates := by
  unfold Obligations.AndIsBitwiseAndRotates
  intro s
  obtain ⟨hareg, hbreg, hcreg⟩ := setStack_stackIs s (s.breg &&& s.areg) s.creg s.areg
  refine ⟨_, exec_and s, fun k _ => ?_, hbreg, hcreg, setStack_onlyStackChanged s _ _ _⟩
  rw [hareg, BitVec.getLsbD_and]

/-- Settles O57: a byte's sign bit is its bit 7, a half word's its bit 15. -/
theorem signExtensionCopiesTheSignBit : Obligations.SignExtensionCopiesTheSignBit := by
  unfold Obligations.SignExtensionCopiesTheSignBit
  intro b h k hk
  exact ⟨getLsbD_signExtendByte b hk, getLsbD_signExtendSixteen h hk⟩

end Sys2Proof.Machine
end

section
/-! PROOFS. The encoding: the encoder's chain of prefixes builds the upper digits of an operand in the instruction data value,
and the decoder reads an instruction back from it (spec/30_encoding.md R50 to R64). -/

namespace Sys2Proof

/-! ## The instruction data value, split into its lowest digit and the rest (R52) -/

theorem loadData_upper_low (v : Word) : loadData (v >>> 4 <<< 4) (v.extractLsb' 0 4) = v := by
  apply BitVec.eq_of_getLsbD_eq
  intro k hk
  rw [loadData, BitVec.getLsbD_or, BitVec.getLsbD_shiftLeft, BitVec.getLsbD_ushiftRight, BitVec.getLsbD_setWidth,
    BitVec.getLsbD_extractLsb']
  rcases Nat.lt_or_ge k 4 with h | h
  · simp [hk, h]
  · simp [hk, Nat.not_lt.2 h, Nat.add_sub_cancel' h]

theorem toNat_shiftRight (v : Word) : (v >>> 4).toNat = v.toNat / 16 := by
  rw [BitVec.toNat_ushiftRight, Nat.shiftRight_eq_div_pow]

theorem shiftRight_of_lt {v : Word} (h : v.toNat < 16) : v >>> 4 = 0#32 := by
  apply BitVec.eq_of_toNat_eq
  rw [toNat_shiftRight, Nat.div_eq_of_lt h]
  rfl

/-- Complemented under a shift, the upper digits of a value come back (R71). -/
theorem not_not_shiftRight_shiftLeft (v : Word) : ~~~(~~~v >>> 4) <<< 4 = v >>> 4 <<< 4 := by
  apply BitVec.eq_of_getLsbD_eq
  intro k hk
  have hlt : k - 4 < 32 := by omega
  simp only [BitVec.getLsbD_shiftLeft, BitVec.getLsbD_not, BitVec.getLsbD_ushiftRight]
  rcases Nat.lt_or_ge k 4 with h | h
  · simp [h]
  · simp [hk, h, hlt]

/-! ## Decoding one component -/

theorem decodeFrom_of_prefixing {t : FnTable} {idv v : Word} {b : Byte} (h : prefixValue? t idv b = some v) {k : Nat}
    (hk : k < 7) (bs : List Byte) : decodeFrom t idv k (b :: bs) = decodeFrom t v (k + 1) bs := by
  simp [decodeFrom, h, hk]

theorem decodeFrom_of_eighth {t : FnTable} {idv v : Word} {b : Byte} (h : prefixValue? t idv b = some v)
    {k : Nat} (hk : 7 ≤ k) (bs : List Byte) : decodeFrom t idv k (b :: bs) = .error .prefixChainTooLong := by
  simp [decodeFrom, h, hk]

theorem decodeFrom_of_completing {t : FnTable} {idv : Word} {b : Byte} (h : prefixValue? t idv b = none) (k : Nat)
    (bs : List Byte) : decodeFrom t idv k (b :: bs) = .ok (decodeComponent t idv b, bs) := by
  simp [decodeFrom, h]

/-- Everything a successful decode can begin with: `pfix` or `nfix` with fewer than seven before it, or the completing
component. -/
theorem decodeFrom_ok {t : FnTable} {idv : Word} {k : Nat} {b : Byte} {bs rest : List Byte} {i : Instr}
    (h : decodeFrom t idv k (b :: bs) = .ok (i, rest)) :
    (∃ v, prefixValue? t idv b = some v ∧ k < 7 ∧ decodeFrom t v (k + 1) bs = .ok (i, rest)) ∨
      (prefixValue? t idv b = none ∧ i = decodeComponent t idv b ∧ rest = bs) := by
  cases hp : prefixValue? t idv b with
  | some v =>
    rcases Nat.lt_or_ge k 7 with hk | hk
    · exact .inl ⟨v, rfl, hk, decodeFrom_of_prefixing hp hk bs ▸ h⟩
    · rw [decodeFrom_of_eighth hp hk] at h
      cases h
  | none =>
    rw [decodeFrom_of_completing hp] at h
    cases h
    exact .inr ⟨rfl, rfl, rfl⟩

theorem prefixValue?_pfix {t : FnTable} (h : t.wf) (idv : Word) (d : Nibble) :
    prefixValue? t idv (component t .pfix d) = some (pfixValue idv d) := by
  simp [prefixValue?, componentFunction_component h, componentData_component]

theorem prefixValue?_nfix {t : FnTable} (h : t.wf) (idv : Word) (d : Nibble) :
    prefixValue? t idv (component t .nfix d) = some (nfixValue idv d) := by
  simp [prefixValue?, componentFunction_component h, componentData_component]

/-- A component leaves the instruction complete exactly where its function is neither `pfix` nor `nfix` (R53). -/
theorem prefixValue?_eq_none_iff (t : FnTable) (idv : Word) (b : Byte) :
    prefixValue? t idv b = none ↔ componentFunction t b ≠ .pfix ∧ componentFunction t b ≠ .nfix := by
  unfold prefixValue?
  cases componentFunction t b <;> simp

/-! ## The prefixes of an encoding (R63) -/

/-- The prefixing components before the completing one in the shortest encoding of the operand `v` in at most `k` prefixes. -/
def prefixesOf (t : FnTable) : Nat → Word → List Byte
  | 0, _ => []
  | k + 1, v =>
    if v.toNat < 16 then []
    else if v.msb then prefixesOf t k (~~~v >>> 4) ++ [component t .nfix ((~~~v >>> 4).extractLsb' 0 4)]
    else prefixesOf t k (v >>> 4) ++ [component t .pfix ((v >>> 4).extractLsb' 0 4)]

theorem encodeWithin_eq (t : FnTable) (k : Nat) (f : Func) (v : Word) :
    encodeWithin t k f v = prefixesOf t k v ++ [component t f (v.extractLsb' 0 4)] := by
  induction k generalizing f v with
  | zero => rfl
  | succ k ih =>
    unfold encodeWithin prefixesOf
    split_ifs
    · rfl
    · rw [ih]
    · rw [ih]

theorem prefixesOf_length (t : FnTable) (k : Nat) (v : Word) : (prefixesOf t k v).length ≤ k := by
  have h := (encodeWithin_length t k .opr v).2
  rw [encodeWithin_eq, List.length_append, List.length_singleton] at h
  omega

/-- A value of at most `k + 1` digits is negative only where it fills the word. -/
theorem seven_le_of_msb {v : Word} {k : Nat} (h : v.toNat < 16 ^ (k + 1)) (hmsb : v.msb = true) : 7 ≤ k := by
  have hv : 2147483648 ≤ v.toNat := by simpa [BitVec.msb_eq_decide] using hmsb
  by_contra hk
  have : 16 ^ (k + 1) ≤ 16 ^ 7 := Nat.pow_le_pow_right (by decide) (by omega)
  omega

/-- A chain that leaves `idv` in the instruction data value, with one component more. -/
theorem decodeFrom_snoc {t : FnTable} {ps : List Byte} {b : Byte} {idv v : Word}
    (hps : ∀ rest, decodeFrom t 0#32 0 (ps ++ rest) = decodeFrom t idv ps.length rest) (hlen : ps.length < 7)
    (hb : prefixValue? t idv b = some v) (rest : List Byte) :
    decodeFrom t 0#32 0 (ps ++ [b] ++ rest) = decodeFrom t v (ps ++ [b]).length rest := by
  rw [List.append_assoc, hps, List.singleton_append, decodeFrom_of_prefixing hb hlen, List.length_append,
    List.length_singleton]

/-- Decoding the prefixes of an operand leaves its upper digits in the instruction data value. -/
theorem decodeFrom_prefixesOf {t : FnTable} (ht : t.wf) {k : Nat} (hk : k ≤ 7) {v : Word}
    (hv : v.toNat < 16 ^ (k + 1)) (rest : List Byte) :
    decodeFrom t 0#32 0 (prefixesOf t k v ++ rest) =
      decodeFrom t (v >>> 4 <<< 4) (prefixesOf t k v).length rest := by
  induction k generalizing v rest with
  | zero => simp [prefixesOf, shiftRight_of_lt hv]
  | succ k ih =>
    have hlen : ∀ w, (prefixesOf t k w).length < 7 := fun w => by
      have := prefixesOf_length t k w
      omega
    unfold prefixesOf
    split_ifs with hsmall hmsb
    · simp [shiftRight_of_lt hsmall]
    · have hk7 := seven_le_of_msb hv hmsb
      obtain rfl : k = 6 := by omega
      have hupper : (~~~v >>> 4).toNat < 16 ^ 7 := by
        have := (~~~v).isLt
        rw [toNat_shiftRight]
        omega
      refine decodeFrom_snoc (ih (by omega) hupper) (hlen _) ?_ rest
      rw [prefixValue?_nfix ht, nfixValue, loadData_upper_low, not_not_shiftRight_shiftLeft]
    · have hupper : (v >>> 4).toNat < 16 ^ (k + 1) := by
        rw [Nat.pow_succ] at hv
        rw [toNat_shiftRight]
        omega
      refine decodeFrom_snoc (ih (by omega) hupper) (hlen _) ?_ rest
      rw [prefixValue?_pfix ht, pfixValue, loadData_upper_low]

/-- The decode of an encoded operand, whatever bytes follow: its upper digits are in the instruction data value when the
component of its function completes it. -/
theorem decode_encodeOperand {t : FnTable} (ht : t.wf) {f : Func} (hp : f ≠ .pfix) (hn : f ≠ .nfix) (v : Word)
    (rest : List Byte) :
    decode t (encodeOperand t f v ++ rest) =
      .ok (decodeComponent t (v >>> 4 <<< 4) (component t f (v.extractLsb' 0 4)), rest) := by
  have hcompletes : prefixValue? t (v >>> 4 <<< 4) (component t f (v.extractLsb' 0 4)) = none := by
    rw [prefixValue?_eq_none_iff, componentFunction_component ht]
    exact ⟨hp, hn⟩
  rw [decode, encodeOperand, encodeWithin_eq, List.append_assoc,
    decodeFrom_prefixesOf ht (by decide) (by simpa using v.isLt), List.singleton_append,
    decodeFrom_of_completing hcompletes]

/-- An encoded operand decodes to what its function makes of the completed instruction data value. -/
theorem decode_encodeOperand_eq {t : FnTable} (ht : t.wf) {f : Func} {make : Word → Instr} (hp : f ≠ .pfix)
    (hn : f ≠ .nfix)
    (hmake : ∀ idv b, componentFunction t b = f → decodeComponent t idv b = make (loadData idv (componentData b)))
    (v : Word) (rest : List Byte) : decode t (encodeOperand t f v ++ rest) = .ok (make v, rest) := by
  rw [decode_encodeOperand ht hp hn, hmake _ _ (componentFunction_component ht f _), componentData_component,
    loadData_upper_low]

theorem decodeComponent_of_opr {t : FnTable} {b : Byte} (h : componentFunction t b = .opr) (idv : Word) :
    decodeComponent t idv b = decodeOperate (loadData idv (componentData b)) := by
  simp [decodeComponent, h]

/-- An encoded operation code decodes to the instruction it selects, or to the bare `opr`. -/
theorem decode_encodeOperand_opr {t : FnTable} (ht : t.wf) (n : Word) (rest : List Byte) :
    decode t (encodeOperand t .opr n ++ rest) = .ok (decodeOperate n, rest) :=
  decode_encodeOperand_eq ht (by decide) (by decide) (fun idv _ h => decodeComponent_of_opr h idv) n rest

theorem decodeOperate_of_bare {n : Word} (h : operateIsBare n = true) : decodeOperate n = .opr n := by
  rw [operateIsBare, Option.isNone_iff_eq_none] at h
  rw [decodeOperate, h, Option.getD_none]

theorem operateIsBare_iff (n : Word) : operateIsBare n = true ↔ n ≠ 4#32 ∧ n ≠ 9#32 := by
  unfold operateIsBare opCode
  split_ifs <;> simp_all

/-! ## The round trip -/

/-- Settles O3: the encoder's chain leaves the operand's upper digits in the instruction data value, and the completing
component supplies its function and the lowest digit. -/
theorem decodeOfEncodeIsTheInstruction : Obligations.DecodeOfEncodeIsTheInstruction := by
  unfold Obligations.DecodeOfEncodeIsTheInstruction
  intro t i rest ht hwf hcompletes
  cases i with
  | pfix d | nfix d => cases hcompletes
  | opr n => rw [encode, decode_encodeOperand_opr ht, decodeOperate_of_bare hwf]
  | adc n | ajw n | fcall n | cj n | eqc n | j n | ldc n | ldl n | ldlp n | ldnl n | ldnlp n | stl n | stnl n =>
    exact decode_encodeOperand_eq ht (by decide) (by decide) (fun _ _ h => by simp [decodeComponent, h]) n rest
  | add => exact decode_encodeOperand_opr ht 4#32 rest
  | and => exact decode_encodeOperand_opr ht 9#32 rest
  | rot | arot | dup | rev | mul | addc | subc | swap32 | gajw | io | ldprodid | eret | mac | umac => cases hwf

/-- Settles O1: F4 and F9 are the encodings of `add` and `and`, whatever the other codes, and any other operation code
decodes to the bare `opr`. -/
theorem survivingOperationCodesDecode : Obligations.SurvivingOperationCodesDecode := by
  unfold Obligations.SurvivingOperationCodesDecode
  intro t ht
  have hadd : encodeOperand t .opr 4#32 ++ [] = [0xF4#8] := by
    simp [encodeOperand, encodeWithin, component, fnCode]
  have hand : encodeOperand t .opr 9#32 ++ [] = [0xF9#8] := by
    simp [encodeOperand, encodeWithin, component, fnCode]
  refine ⟨hadd ▸ decode_encodeOperand_opr ht 4#32 [], hand ▸ decode_encodeOperand_opr ht 9#32 [], fun n h4 h9 => ?_⟩
  rw [← List.append_nil (encodeOperand t .opr n), decode_encodeOperand_opr ht,
    decodeOperate_of_bare ((operateIsBare_iff n).2 ⟨h4, h9⟩)]

/-- Settles O4: the component gives its function and its data field back, and neither reads the instruction data value. -/
theorem prefixComponentsDecode : Obligations.PrefixComponentsDecode := by
  unfold Obligations.PrefixComponentsDecode
  intro t idv d b ht
  refine ⟨fun h => ?_, fun h => ?_⟩
  all_goals
    obtain rfl := List.singleton_inj.1 h
    simp [decodeComponent, componentFunction_component ht, componentData_component]

/-- Settles O2: each chain of the vectors, decoded component by component. -/
theorem wordsOfTheSpecDecode : Obligations.WordsOfTheSpecDecode := by
  unfold Obligations.WordsOfTheSpecDecode
  exact ⟨rfl, rfl, rfl, rfl, rfl, rfl, rfl, rfl, rfl, rfl⟩

end Sys2Proof
end

section
/-! PROOFS. Chains of prefixes: how many may come, which values they reach, and that the encoder never takes more than any
other chain (spec/30_encoding.md R54, R55, R63, D5). -/

namespace Sys2Proof

/-! ## How far a chain reaches -/

/-- The digits of a value above its sign: the value itself, or its complement where it is negative. -/
def magnitude (v : Word) : Nat := if v.msb then (~~~v).toNat else v.toNat

/-- The values `k` prefixes and a completing component can build: `k + 1` digits, and a sign where `k` is not zero. -/
def Reaches (k : Nat) (v : Word) : Prop := magnitude v < 16 ^ (k + 1) ∧ (k = 0 → v.msb = false)

theorem magnitude_eq (v : Word) :
    magnitude v = if 2147483648 ≤ v.toNat then 4294967295 - v.toNat else v.toNat := by
  unfold magnitude
  simp only [BitVec.msb_eq_decide, decide_eq_true_eq, BitVec.toNat_not]

theorem toNat_loadData_shift (v : Word) (d : Nibble) :
    (loadData (v <<< 4) d).toNat = v.toNat * 16 % 4294967296 + d.toNat := by
  have hd := d.isLt
  have hshift : v <<< 4 = BitVec.ofNat 32 (v.toNat * 16) := by
    apply BitVec.eq_of_toNat_eq
    rw [BitVec.toNat_shiftLeft, Nat.shiftLeft_eq, BitVec.toNat_ofNat]
  have hdigit : (v <<< 4).toNat = v.toNat % 268435456 * 16 := by
    rw [hshift, BitVec.toNat_ofNat]
    omega
  rw [loadData, BitVec.toNat_or, hdigit, BitVec.toNat_setWidth_of_le (by decide), ← Nat.shiftLeft_eq _ 4,
    ← Nat.shiftLeft_add_eq_or_of_lt d.isLt, Nat.shiftLeft_eq]
  omega

/-- One digit more under a value with its sign. -/
theorem magnitude_loadData_shift_lt {v : Word} {k : Nat} (h : magnitude v < 16 ^ (k + 1)) (d : Nibble) :
    magnitude (loadData (v <<< 4) d) < 16 ^ (k + 2) := by
  have hd := d.isLt
  have hv := v.isLt
  rcases Nat.lt_or_ge k 6 with hk | hk
  · have hle : 16 ^ (k + 1) ≤ 16 ^ 6 := Nat.pow_le_pow_right (by decide) (by omega)
    rw [Nat.pow_succ _ (k + 1)]
    rw [magnitude_eq] at h
    rw [magnitude_eq, toNat_loadData_shift]
    split_ifs at h ⊢ <;> omega
  · have hle : 16 ^ 8 ≤ 16 ^ (k + 2) := Nat.pow_le_pow_right (by decide) (by omega)
    have : magnitude (loadData (v <<< 4) d) < 16 ^ 8 := by
      rw [magnitude_eq]
      split_ifs <;> omega
    omega

theorem magnitude_not (v : Word) : magnitude (~~~v) = magnitude v := by
  have hv := v.isLt
  rw [magnitude_eq, magnitude_eq, BitVec.toNat_not]
  split_ifs <;> omega

theorem reaches_zero (d : Nibble) : Reaches 0 (loadData 0#32 d) := by
  have hd := d.isLt
  have hvalue : (loadData 0#32 d).toNat = d.toNat := by simpa using toNat_loadData_shift 0#32 d
  refine ⟨?_, fun _ => ?_⟩
  · rw [magnitude_eq, hvalue]
    split_ifs <;> omega
  · rw [BitVec.msb_eq_decide, hvalue]
    simp
    omega

/-- Each of the prefixes lets the chain reach one digit more. -/
theorem reaches_succ {t : FnTable} {idv v : Word} {b : Byte} {k : Nat} (hp : prefixValue? t idv b = some v)
    (h : ∀ d, Reaches k (loadData idv d)) (d : Nibble) : Reaches (k + 1) (loadData v d) := by
  obtain ⟨hloaded, _⟩ := h (componentData b)
  refine ⟨?_, by simp⟩
  unfold prefixValue? at hp
  split at hp <;> cases hp
  · exact magnitude_loadData_shift_lt hloaded d
  · exact magnitude_loadData_shift_lt (by rwa [magnitude_not]) d

/-- One digit less, without a sign. -/
theorem reaches_shiftRight {k : Nat} {v : Word} (h : v.toNat < 16 ^ (k + 2)) : Reaches k (v >>> 4) := by
  have hv := v.isLt
  rw [Nat.pow_succ] at h
  refine ⟨?_, fun _ => ?_⟩
  · rw [magnitude_eq, toNat_shiftRight]
    split_ifs <;> omega
  · rw [BitVec.msb_eq_decide, toNat_shiftRight]
    simp
    omega

/-! ## The encoder's chain is a shortest one -/

/-- The encoder takes no more prefixes than are needed to reach the operand. -/
theorem prefixesOf_length_le (t : FnTable) (m : Nat) {k : Nat} {v : Word} (h : Reaches k v) :
    (prefixesOf t m v).length ≤ k := by
  induction m generalizing k v with
  | zero => simp [prefixesOf]
  | succ m ih =>
    obtain ⟨hlt, hsign⟩ := h
    unfold magnitude at hlt
    unfold prefixesOf
    cases k with
    | zero =>
      have hmsb := hsign rfl
      rw [if_pos (by simpa [hmsb] using hlt)]
      rfl
    | succ k =>
      split_ifs with hsmall hmsb
      · simp
      · rw [if_pos hmsb] at hlt
        have := ih (reaches_shiftRight hlt)
        rw [List.length_append, List.length_singleton]
        omega
      · rw [if_neg hmsb] at hlt
        have := ih (reaches_shiftRight hlt)
        rw [List.length_append, List.length_singleton]
        omega

theorem encode_decodeOperate (t : FnTable) (n : Word) : encode t (decodeOperate n) = encodeOperand t .opr n := by
  unfold decodeOperate opCode
  split_ifs with h4 h9
  · rw [h4]; rfl
  · rw [h9]; rfl
  · rfl

/-- The encoding of a completed instruction has the length of its operand's: the function plays no part. -/
theorem encode_decodeComponent_length {t : FnTable} {idv : Word} {b : Byte} (h : prefixValue? t idv b = none) :
    (encode t (decodeComponent t idv b)).length =
      (prefixesOf t 7 (loadData idv (componentData b))).length + 1 := by
  obtain ⟨hp, hn⟩ := (prefixValue?_eq_none_iff t idv b).1 h
  cases hf : componentFunction t b with
  | pfix => exact absurd hf hp
  | nfix => exact absurd hf hn
  | opr =>
    rw [decodeComponent_of_opr hf, encode_decodeOperate, encodeOperand, encodeWithin_eq, List.length_append,
      List.length_singleton]
  | _ => simp [decodeComponent, hf, encode, encodeOperand, encodeWithin_eq]

/-- Wherever the decoder stands in a chain, the instruction it answers has an encoding no longer than what it read. -/
theorem encode_length_le_of_decodeFrom {t : FnTable} {idv : Word} {k : Nat} {bs rest : List Byte} {i : Instr}
    (hreach : ∀ d, Reaches k (loadData idv d)) (h : decodeFrom t idv k bs = .ok (i, rest)) :
    (encode t i).length + rest.length ≤ k + bs.length := by
  induction bs generalizing idv k with
  | nil => cases h
  | cons b bs ih =>
    rcases decodeFrom_ok h with ⟨v, hp, _, hrest⟩ | ⟨hp, rfl, rfl⟩
    · have := ih (reaches_succ hp hreach) hrest
      rw [List.length_cons]
      omega
    · have := prefixesOf_length_le t 7 (hreach (componentData b))
      rw [encode_decodeComponent_length hp, List.length_cons]
      omega

/-- Settles O5: each of a sequence's prefixes adds at most one digit to what it reaches, and the encoder takes one for each
digit there is. -/
theorem encodingIsShortest : Obligations.EncodingIsShortest := by
  unfold Obligations.EncodingIsShortest
  intro t bs i h
  simpa using encode_length_le_of_decodeFrom reaches_zero h

/-! ## How long a chain may be -/

/-- A chain of prefixes after `k` others completes where there are at most seven in all, and is rejected where there are
more. -/
theorem decodeFrom_chain {t : FnTable} {ps : List Byte} {b : Byte}
    (hps : ∀ p ∈ ps, componentFunction t p = .pfix ∨ componentFunction t p = .nfix)
    (hb : ∀ idv, prefixValue? t idv b = none) (rest : List Byte) (idv : Word) {k : Nat} (hk : k ≤ 7) :
    (k + ps.length ≤ 7 → ∃ v, decodeFrom t idv k (ps ++ b :: rest) = .ok (decodeComponent t v b, rest)) ∧
      (7 < k + ps.length → decodeFrom t idv k (ps ++ b :: rest) = .error .prefixChainTooLong) := by
  induction ps generalizing idv k with
  | nil =>
    refine ⟨fun _ => ⟨idv, decodeFrom_of_completing (hb idv) k rest⟩, fun h => ?_⟩
    rw [List.length_nil] at h
    omega
  | cons p ps ih =>
    obtain ⟨v, hv⟩ : ∃ v, prefixValue? t idv p = some v := by
      rw [← Option.ne_none_iff_exists', Ne, prefixValue?_eq_none_iff]
      have := hps p List.mem_cons_self
      tauto
    rw [List.cons_append, List.length_cons]
    rcases Nat.lt_or_ge k 7 with hk7 | hk7
    · have := ih (fun q hq => hps q (List.mem_cons_of_mem p hq)) v (k := k + 1) (by omega)
      rwa [decodeFrom_of_prefixing hv hk7, ← Nat.succ_add_eq_add_succ]
    · exact ⟨fun h => by omega, fun _ => decodeFrom_of_eighth hv hk7 _⟩

/-- Settles O6: each of the chain's prefixes is taken while fewer than seven came before it, and the eighth is rejected. -/
theorem sevenPrefixesAtMost : Obligations.SevenPrefixesAtMost := by
  unfold Obligations.SevenPrefixesAtMost
  intro t ps b rest hps hp hn
  have hb : ∀ idv, prefixValue? t idv b = none := fun idv => (prefixValue?_eq_none_iff t idv b).2 ⟨hp, hn⟩
  obtain ⟨hshort, hlong⟩ := decodeFrom_chain hps hb rest 0#32 (Nat.zero_le 7)
  rw [Nat.zero_add] at hshort hlong
  refine ⟨fun h => ?_, hlong⟩
  obtain ⟨v, hv⟩ := hshort h
  exact ⟨_, by rw [Machine.decodeComponent_isPrefixing, hb, Option.isSome_none], hv⟩

/-! ## What the decoder answers -/

theorem decodeOperate_wellFormed (n : Word) : (decodeOperate n).wellFormed = true := by
  unfold decodeOperate
  cases h : opCode n with
  | none => simp [Instr.wellFormed, operateIsBare, h]
  | some i =>
    unfold opCode at h
    split_ifs at h <;> cases h <;> rfl

theorem decodeOperate_dataValue (n : Word) : (decodeOperate n).dataValue = some n := by
  unfold decodeOperate opCode
  split_ifs with h4 h9
  · rw [h4]; rfl
  · rw [h9]; rfl
  · rfl

theorem decodeComponent_wellFormed (t : FnTable) (idv : Word) (b : Byte) :
    (decodeComponent t idv b).wellFormed = true := by
  cases h : componentFunction t b with
  | opr => rw [decodeComponent_of_opr h, decodeOperate_wellFormed]
  | _ => simp [decodeComponent, h, Instr.wellFormed]

/-- A component that completes an instruction supplies the lowest digit of its data value. -/
theorem decodeComponent_dataValue {t : FnTable} {idv : Word} {b : Byte} (h : prefixValue? t idv b = none) :
    (decodeComponent t idv b).dataValue = some (loadData idv (componentData b)) := by
  obtain ⟨hp, hn⟩ := (prefixValue?_eq_none_iff t idv b).1 h
  cases hf : componentFunction t b with
  | pfix => exact absurd hf hp
  | nfix => exact absurd hf hn
  | opr => rw [decodeComponent_of_opr hf, decodeOperate_dataValue]
  | _ => simp [decodeComponent, hf, Instr.dataValue]

/-- The data field of a prefixing component is its whole data value. -/
theorem decodeComponent_dataValue_of_prefixing {t : FnTable} {idv : Word} {b : Byte}
    (h : prefixValue? t idv b ≠ none) : (decodeComponent t idv b).dataValue = some ((componentData b).setWidth 32) := by
  rw [Ne, prefixValue?_eq_none_iff] at h
  have hf : componentFunction t b = .pfix ∨ componentFunction t b = .nfix := by tauto
  rcases hf with hf | hf <;> simp [decodeComponent, hf, Instr.dataValue]

theorem extractLsb'_low_loadData {idv : Word} (h : idv.extractLsb' 0 4 = 0#4) (d : Nibble) :
    (loadData idv d).extractLsb' 0 4 = d := by
  rw [loadData, BitVec.extractLsb'_or, h, BitVec.zero_or]
  apply BitVec.eq_of_getLsbD_eq
  intro k hk
  have hk32 : k < 32 := by omega
  simp [hk, hk32]

theorem extractLsb'_upper_loadData (idv : Word) (d : Nibble) :
    (loadData idv d).extractLsb' 4 28 = idv.extractLsb' 4 28 := by
  apply BitVec.eq_of_getLsbD_eq
  intro k hk
  simp [loadData, hk]

/-- Settles O7: the data bits are the lowest digit of the data value, over the upper digits where the component completes
an instruction, and `opr` with a known code is never answered bare. -/
theorem decodedComponentsAreWellFormed : Obligations.DecodedComponentsAreWellFormed := by
  unfold Obligations.DecodedComponentsAreWellFormed
  intro t idv b
  refine ⟨decodeComponent_wellFormed t idv b, fun hlow => ?_⟩
  by_cases hp : prefixValue? t idv b = none
  · exact ⟨_, decodeComponent_dataValue hp, extractLsb'_low_loadData hlow _,
      fun _ => extractLsb'_upper_loadData idv _⟩
  · refine ⟨_, decodeComponent_dataValue_of_prefixing hp, ?_, fun hcompletes => ?_⟩
    · simpa [loadData, componentData] using extractLsb'_low_loadData (idv := 0#32) rfl (componentData b)
    · rw [Machine.decodeComponent_isPrefixing, Option.isSome_eq_false_iff, Option.isNone_iff_eq_none] at hcompletes
      exact absurd hcompletes hp

end Sys2Proof
end

section
/-! PROOFS. What an instruction that completes can do, said once: each statement about what instructions write or leave alone
is read off from it. -/

namespace Sys2Proof.Machine

/-! ## The forms an effect can have -/

/-- What the instruction leaves of the state `s` when it completes, by the part of the state it may write. -/
inductive Effect (s : State) : Instr → State → Prop
  /-- a prefixing component builds the instruction data value, whose lowest digit it leaves zero (R70, R71) -/
  | prefixed {i : Instr} (v : Word) (hi : i.isPrefixing = true) (hv : v.extractLsb' 0 4 = 0#4)
      (hp : s.prefixes < 7) : Effect s i { s with idv := v, prefixes := s.prefixes + 1 }
  /-- the evaluation stack alone -/
  | stack {i : Instr} (a b c : Word) (hi : i.isPrefixing = false) : Effect s i (s.setStack a b c)
  /-- Iptr alone: a jump (R83, R85) -/
  | jump {i : Instr} (n : Word) (hi : i.isPrefixing = false) : Effect s i (s.jumpBy n)
  /-- Wptr alone (R81) -/
  | adjust (n : Word) : Effect s (.ajw n) (s.setWptr (wordOffset s.wptr n))
  /-- the stack, overflow and underflow (R80, R110, R112) -/
  | checked {i : Instr} (a b c st : Word) (n : Nat) (hi : (∃ m, i = .adc m) ∨ i = .add ∨ i = .mul)
      (hst : StatusUnchangedBut [.overflow, .underflow] s (s.setStatus st)) :
      Effect s i (((s.setStack a b c).setStatus st).spend n)
  /-- the stack, overflow, underflow and carry (R113, R114) -/
  | carried {i : Instr} (a b c st : Word) (n : Nat) (hi : i = .addc ∨ i = .subc)
      (hst : StatusUnchangedBut [.overflow, .underflow, .carry] s (s.setStatus st)) :
      Effect s i (((s.setStack a b c).setStatus st).spend n)
  /-- one word of memory and the stack (R91, R92) -/
  | stored {i : Instr} (a v : Word) (b c d : Word) (n : Nat)
      (hi : (∃ m, i = .stl m ∧ a = wordOffset s.wptr m) ∨ (∃ m, i = .stnl m ∧ a = wordOffset s.areg m)) :
      Effect s i ((({ s with mem := Memory.write s.mem a 4 v } : State).setStack b c d).spend n)
  /-- Wptr and the stack (R116) -/
  | generalAdjust (a b c w : Word) (n : Nat) : Effect s .gajw (((s.setStack a b c).setWptr w).spend n)
  /-- IOreg and the stack (R117) -/
  | inputOutput (a b c : Word) (x y : BitVec 16) (n : Nat) : Effect s .io (((s.setStack a b c).setIoreg x y).spend n)
  /-- the process state registers and the signals to the controller (R119) -/
  | returned : Effect s .eret (returnFromException s)

/-! ## Where each form comes from -/

theorem pfixValue_low (idv : Word) (d : Nibble) : (pfixValue idv d).extractLsb' 0 4 = 0#4 := by
  apply BitVec.eq_of_getLsbD_eq
  intro k hk
  simp [pfixValue, hk]

theorem nfixValue_low (idv : Word) (d : Nibble) : (nfixValue idv d).extractLsb' 0 4 = 0#4 := by
  apply BitVec.eq_of_getLsbD_eq
  intro k hk
  simp [nfixValue, hk]

theorem checkedStatus_unchangedBut (s : State) (x : Int) (o u : Bool) :
    StatusUnchangedBut [.overflow, .underflow] s (s.setStatus (checkedStatus s.status x o u)) :=
  fun k hk h => getLsbD_checkedStatus s.status x o u k hk (h _ (by simp)) (h _ (by simp))

theorem undefinedFlags_unchangedBut (s : State) (o u : Bool) :
    StatusUnchangedBut [.overflow, .underflow] s (s.setStatus (undefinedFlags s.status o u)) :=
  fun k hk h => getLsbD_undefinedFlags s.status o u k hk (h _ (by simp)) (h _ (by simp))

theorem carry_undefinedFlags_unchangedBut (s : State) (o u c : Bool) :
    StatusUnchangedBut [.overflow, .underflow, .carry] s
      (s.setStatus (setStatusBit (undefinedFlags s.status o u) .carry c)) := fun k hk h => by
  rw [State.setStatus_status, getLsbD_setStatusBit _ _ _ _ hk, if_neg (h .carry (by simp)),
    getLsbD_undefinedFlags s.status o u k hk (h _ (by simp)) (h _ (by simp))]

/-- The effect of an instruction other than `opr`. -/
theorem effect_of_exec {i : Instr} {s t : State} (hi : ∀ n, i ≠ .opr n) (h : exec i s = .next t) : Effect s i t := by
  cases i with
  | opr n => exact absurd rfl (hi n)
  | pfix d =>
    obtain ⟨hp, rfl⟩ := extendIdv_next h
    exact .prefixed _ rfl (pfixValue_low _ _) hp
  | nfix d =>
    obtain ⟨hp, rfl⟩ := extendIdv_next h
    exact .prefixed _ rfl (nfixValue_low _ _) hp
  | fcall n | mac | umac => cases h
  | adc n =>
    cases h
    exact .checked (s.areg + n) s.breg s.creg _ 2 (.inl ⟨n, rfl⟩) (undefinedFlags_unchangedBut s _ _)
  | add =>
    cases h
    exact .checked _ _ _ _ _ (.inr (.inl rfl)) (checkedStatus_unchangedBut s _ _ _)
  | mul =>
    cases h
    exact .checked _ _ _ _ _ (.inr (.inr rfl)) (checkedStatus_unchangedBut s _ _ _)
  | addc =>
    cases h
    exact .carried _ _ _ _ _ (.inl rfl) (carry_undefinedFlags_unchangedBut s _ _ _)
  | subc =>
    cases h
    exact .carried _ _ _ _ _ (.inr rfl) (carry_undefinedFlags_unchangedBut s _ _ _)
  | cj n =>
    by_cases hzero : s.areg = 0#32
    · rw [exec_cj_of_zero hzero] at h
      cases h
      exact .jump n rfl
    · rw [exec_cj_of_ne_zero hzero] at h
      cases h
      exact .stack s.breg s.creg s.areg rfl
  | j n =>
    simp only [exec, execJ] at h
    split_ifs at h
    cases h
    exact .jump n rfl
  | ajw n => cases h; exact .adjust n
  | eqc n | ldnlp n | swap32 => cases h; exact .stack _ s.breg s.creg rfl
  | ldc n | ldlp n | arot | dup | ldprodid => cases h; exact .stack _ s.areg s.breg rfl
  | rot => cases h; exact .stack s.breg s.creg s.areg rfl
  | and | rev => cases h; exact .stack _ _ _ rfl
  | ldl n =>
    obtain ⟨_, rfl⟩ := withWord_next h
    exact .stack _ s.areg s.breg rfl
  | ldnl n =>
    obtain ⟨_, rfl⟩ := withWord_next h
    exact .stack _ s.breg s.creg rfl
  | stl n =>
    obtain ⟨u, hu, rfl⟩ := andThen_next h
    obtain ⟨_, _, rfl⟩ := store_next hu
    exact .stored _ _ s.breg s.creg _ _ (.inl ⟨n, rfl, rfl⟩)
  | stnl n =>
    obtain ⟨u, hu, rfl⟩ := andThen_next h
    obtain ⟨_, _, rfl⟩ := store_next hu
    exact .stored _ _ _ _ _ _ (.inr ⟨n, rfl, rfl⟩)
  | gajw => cases h; exact .generalAdjust _ _ _ _ _
  | io => cases h; exact .inputOutput _ _ _ _ _ _
  | eret => cases h; exact .returned

/-- Everything an instruction that completes can do: its own effect, or under `opr` that of the secondary instruction
selected. -/
theorem exec_effect {i : Instr} {s t : State} (h : exec i s = .next t) :
    ∃ k, ExecutesAs i s k ∧ (i = k ∨ k.isSecondary = true) ∧ Effect s k t := by
  by_cases hi : ∃ n, i = .opr n
  · obtain ⟨n, rfl⟩ := hi
    obtain ⟨k, hop, hsec, _, hk⟩ := execOpr_next h
    have hne : ∀ m, k ≠ .opr m := fun m hm => by rw [hm] at hsec; cases hsec
    exact ⟨k, .inr ⟨n, rfl, hop⟩, .inr hsec, effect_of_exec hne hk⟩
  · exact ⟨i, .inl rfl, .inl rfl, effect_of_exec (fun n hn => hi ⟨n, hn⟩) h⟩

end Sys2Proof.Machine
end

section
/-! PROOFS. What instructions write and what they leave alone (spec/10_state.md sections 1 to 3, spec/20_memory.md section 5),
read off from the effects. -/

namespace Sys2Proof.Machine

/-! ## The fields an exception return leaves alone -/

@[simp] theorem returnFromException_mem (s : State) : (returnFromException s).mem = s.mem := by
  obtain ⟨h, -⟩ := returnFromException_frame s
  exact h

@[simp] theorem returnFromException_ioreg (s : State) : (returnFromException s).ioreg = s.ioreg := by
  obtain ⟨-, h, -⟩ := returnFromException_frame s
  exact h

@[simp] theorem returnFromException_idv (s : State) : (returnFromException s).idv = s.idv := by
  obtain ⟨-, -, h, -⟩ := returnFromException_frame s
  exact h

@[simp] theorem returnFromException_prefixes (s : State) : (returnFromException s).prefixes = s.prefixes := by
  obtain ⟨-, -, -, h, -⟩ := returnFromException_frame s
  exact h

@[simp] theorem returnFromException_pending (s : State) : (returnFromException s).pending = s.pending := by
  obtain ⟨-, -, -, -, h, -⟩ := returnFromException_frame s
  exact h

@[simp] theorem returnFromException_launch (s : State) : (returnFromException s).launch = s.launch := by
  obtain ⟨-, -, -, -, -, h, -⟩ := returnFromException_frame s
  exact h

@[simp] theorem returnFromException_draws (s : State) : (returnFromException s).draws = s.draws + 7 := by
  obtain ⟨-, -, -, -, -, -, h, -⟩ := returnFromException_frame s
  exact h

@[simp] theorem returnFromException_controllerSignals (s : State) :
    (returnFromException s).controllerSignals =
      s.controllerSignals + (signalRequired s.status (s.freeBit 0)).toNat := by
  obtain ⟨-, -, -, -, -, -, -, h, -⟩ := returnFromException_frame s
  exact h

@[simp] theorem statusBit_returnFromException_reserved (s : State) :
    statusBit (returnFromException s).status .reserved = statusBit s.status .reserved := by
  obtain ⟨-, -, -, -, -, -, -, -, h⟩ := returnFromException_frame s
  exact h

/-! ## Status outside the fields named -/

theorem statusBit_of_unchangedBut {fields : List StatusBit} {s t : State} (h : StatusUnchangedBut fields s t)
    {f : StatusBit} (hf : f ∉ fields) : statusBit t.status f = statusBit s.status f :=
  h _ f.position_lt fun _ hg hpos => hf (StatusBit.position_inj hpos ▸ hg)

theorem statusUnchangedBut_mono {fields fields' : List StatusBit} {s t : State}
    (h : StatusUnchangedBut fields s t) (hsub : fields ⊆ fields') : StatusUnchangedBut fields' s t :=
  fun k hk hne => h k hk fun f hf => hne f (hsub hf)

/-! ## What every instruction leaves alone -/

theorem exec_launch {i : Instr} {s t : State} (h : exec i s = .next t) : t.launch = s.launch := by
  obtain ⟨k, -, -, heff⟩ := exec_effect h
  cases heff <;> simp

theorem exec_pending {i : Instr} {s t : State} (h : exec i s = .next t) : t.pending = s.pending := by
  obtain ⟨k, -, -, heff⟩ := exec_effect h
  cases heff <;> simp

theorem exec_draws {i : Instr} {s t : State} (h : exec i s = .next t) : s.draws ≤ t.draws := by
  obtain ⟨k, -, -, heff⟩ := exec_effect h
  cases heff <;> simp

theorem exec_mem_wf {i : Instr} {s t : State} (h : exec i s = .next t) (hm : Memory.wf s.mem) : Memory.wf t.mem := by
  obtain ⟨k, -, -, heff⟩ := exec_effect h
  cases heff with
  | stored a v b c d n hi => exact Memory.wf_write hm a 4 v
  | returned => rwa [returnFromException_mem]
  | _ => exact hm

theorem exec_reserved {i : Instr} {s t : State} (h : exec i s = .next t) :
    statusBit t.status .reserved = statusBit s.status .reserved := by
  obtain ⟨k, -, -, heff⟩ := exec_effect h
  cases heff with
  | checked a b c st n hi hst => exact statusBit_of_unchangedBut hst (by decide)
  | carried a b c st n hi hst => exact statusBit_of_unchangedBut hst (by decide)
  | returned => exact statusBit_returnFromException_reserved s
  | _ => rfl

theorem isPrefixing_of_isSecondary {k : Instr} (h : k.isSecondary = true) : k.isPrefixing = false := by
  cases k <;> simp_all [Instr.isSecondary, Instr.isPrefixing]

/-- `opr` is no prefixing component, and neither is what it selects. -/
theorem isPrefixing_of_executesAs {i k : Instr} {s : State} (hk : ExecutesAs i s k)
    (hik : i = k ∨ k.isSecondary = true) : i.isPrefixing = k.isPrefixing := by
  rcases hik with rfl | hsec
  · rfl
  · rcases hk with rfl | ⟨n, rfl, -⟩
    · rfl
    · exact (isPrefixing_of_isSecondary hsec).symm

/-- Only a prefixing component writes the instruction data value and the count of prefixes; what it leaves is well
built. -/
theorem exec_idv {i : Instr} {s t : State} (h : exec i s = .next t) :
    (i.isPrefixing = false ∧ t.idv = s.idv ∧ t.prefixes = s.prefixes) ∨
      (i.isPrefixing = true ∧ s.prefixes < 7 ∧ t.prefixes = s.prefixes + 1 ∧ t.idv.extractLsb' 0 4 = 0#4) := by
  obtain ⟨k, hk, hik, heff⟩ := exec_effect h
  rw [isPrefixing_of_executesAs hk hik]
  cases heff with
  | prefixed v hi hv hp => exact .inr ⟨hi, hp, rfl, hv⟩
  | stack a b c hi => exact .inl ⟨hi, rfl, rfl⟩
  | jump n hi => exact .inl ⟨hi, rfl, rfl⟩
  | checked a b c st n hi => rcases hi with ⟨m, rfl⟩ | rfl | rfl <;> exact .inl ⟨rfl, rfl, rfl⟩
  | carried a b c st n hi => rcases hi with rfl | rfl <;> exact .inl ⟨rfl, rfl, rfl⟩
  | stored a v b c d n hi => rcases hi with ⟨m, rfl, -⟩ | ⟨m, rfl, -⟩ <;> exact .inl ⟨rfl, rfl, rfl⟩
  | returned => exact .inl ⟨rfl, returnFromException_idv s, returnFromException_prefixes s⟩
  | _ => exact .inl ⟨rfl, rfl, rfl⟩

/-- Only the arithmetic instructions and an exception return write Status, and the former only three of its flags. -/
theorem exec_status {i : Instr} {s t : State} (h : exec i s = .next t) (heret : ¬ ExecutesAs i s .eret) :
    StatusUnchangedBut [.overflow, .underflow, .carry] s t ∧
      (t.status = s.status ∨ (∃ n, i = .adc n) ∨ ExecutesAs i s .add ∨ ExecutesAs i s .mul ∨
        ExecutesAs i s .addc ∨ ExecutesAs i s .subc) := by
  obtain ⟨k, hk, hik, heff⟩ := exec_effect h
  cases heff with
  | checked a b c st n hi hst =>
    refine ⟨statusUnchangedBut_mono hst (by simp), .inr ?_⟩
    rcases hi with ⟨m, rfl⟩ | rfl | rfl
    · exact .inl ⟨m, hik.resolve_right (by simp [Instr.isSecondary])⟩
    · exact .inr (.inl hk)
    · exact .inr (.inr (.inl hk))
  | carried a b c st n hi hst =>
    refine ⟨hst, .inr (.inr (.inr (.inr ?_)))⟩
    rcases hi with rfl | rfl
    · exact .inl hk
    · exact .inr hk
  | returned => exact absurd hk heret
  | _ => exact ⟨fun _ _ _ => rfl, .inl rfl⟩

/-! ## The writers of each register -/

/-- Settles O48: the other effects leave Status, or all of it but overflow and underflow. -/
theorem carryIsWrittenByLongArithmeticOnly : Obligations.CarryIsWrittenByLongArithmeticOnly := by
  unfold Obligations.CarryIsWrittenByLongArithmeticOnly
  intro i s t h hcarry
  obtain ⟨k, hk, -, heff⟩ := exec_effect h
  cases heff with
  | checked a b c st n hi hst => exact absurd (statusBit_of_unchangedBut hst (by decide)) hcarry
  | carried a b c st n hi hst => rcases hi with rfl | rfl <;> rcases hk with rfl | ⟨m, rfl, hop⟩ <;> simp [*]
  | returned => rcases hk with rfl | ⟨m, rfl, hop⟩ <;> simp [*]
  | _ => exact absurd rfl hcarry

/-- Settles O49: the other effects leave Wptr. -/
theorem wptrIsMovedByItsInstructionsOnly : Obligations.WptrIsMovedByItsInstructionsOnly := by
  unfold Obligations.WptrIsMovedByItsInstructionsOnly
  intro i s t h hwptr
  obtain ⟨k, hk, hik, heff⟩ := exec_effect h
  cases heff with
  | adjust n => exact .inl ⟨n, hik.resolve_right (by simp [Instr.isSecondary])⟩
  | generalAdjust a b c w n => rcases hk with rfl | ⟨m, rfl, hop⟩ <;> simp [*]
  | returned => rcases hk with rfl | ⟨m, rfl, hop⟩ <;> simp [*]
  | _ => exact absurd rfl hwptr

/-- Settles O50: of the effects only that of `io` reaches IOreg, and only an exception return reaches Tdesc. -/
theorem tdescAndIOregHaveTheirWriters : Obligations.TdescAndIOregHaveTheirWriters := by
  unfold Obligations.TdescAndIOregHaveTheirWriters
  intro i s t h
  obtain ⟨k, hk, -, heff⟩ := exec_effect h
  cases heff with
  | inputOutput a b c x y n => exact ⟨fun _ => hk, fun htdesc => absurd rfl htdesc⟩
  | returned => exact ⟨fun hioreg => absurd (returnFromException_ioreg s) hioreg, fun _ => hk⟩
  | _ => exact ⟨fun hioreg => absurd rfl hioreg, fun htdesc => absurd rfl htdesc⟩

/-- A byte that a write of a word changes is one of the four. -/
theorem Memory.exists_of_byte_write_ne {m : Memory} {a b v : Word}
    (h : Memory.byte (Memory.write m a 4 v) b ≠ Memory.byte m b) : ∃ k < 4, b = a + BitVec.ofNat 32 k := by
  by_contra hout
  push Not at hout
  exact h (Memory.byte_write_outside m v hout)

/-- Settles O51: only the two stores write memory, and `opr` selects neither. -/
theorem memoryIsWrittenByStoresOnly : Obligations.MemoryIsWrittenByStoresOnly := by
  unfold Obligations.MemoryIsWrittenByStoresOnly
  intro i s t a h hbyte
  obtain ⟨k, -, hik, heff⟩ := exec_effect h
  cases heff with
  | stored b v x y z n hi =>
    have hword := Memory.exists_of_byte_write_ne hbyte
    rcases hi with ⟨m, rfl, rfl⟩ | ⟨m, rfl, rfl⟩
    · exact .inl ⟨m, hik.resolve_right (by simp [Instr.isSecondary]), hword⟩
    · exact .inr ⟨m, hik.resolve_right (by simp [Instr.isSecondary]), hword⟩
  | returned => exact absurd (by rw [returnFromException_mem]) hbyte
  | _ => exact absurd rfl hbyte

end Sys2Proof.Machine
end

section
/-! PROOFS. What every step keeps, and what comes in place of an instruction (spec/30_encoding.md section 2,
spec/60_exceptions.md, spec/70_reset_and_hazards.md). -/

namespace Sys2Proof.Machine

/-! ## The state in which a fetched component executes -/

@[simp] theorem fetchSpent_mem (s : State) : (fetchSpent s).mem = s.mem := by
  rcases fetchSpent_eq s with h | h <;> simp [h]
@[simp] theorem fetchSpent_status (s : State) : (fetchSpent s).status = s.status := by
  rcases fetchSpent_eq s with h | h <;> simp [h]
@[simp] theorem fetchSpent_pending (s : State) : (fetchSpent s).pending = s.pending := by
  rcases fetchSpent_eq s with h | h <;> simp [h]
@[simp] theorem fetchSpent_launch (s : State) : (fetchSpent s).launch = s.launch := by
  rcases fetchSpent_eq s with h | h <;> simp [h]

theorem le_fetchSpent_draws (s : State) : s.draws ≤ (fetchSpent s).draws := by
  rcases fetchSpent_eq s with h | h <;> simp [h]

@[simp] theorem advance_mem (i : Instr) (s : State) : (advance i s).mem = s.mem := by
  cases h : i.isPrefixing <;> simp [advance, h]
@[simp] theorem advance_status (i : Instr) (s : State) : (advance i s).status = s.status := by
  cases h : i.isPrefixing <;> simp [advance, h]
@[simp] theorem advance_pending (i : Instr) (s : State) : (advance i s).pending = s.pending := by
  cases h : i.isPrefixing <;> simp [advance, h]
@[simp] theorem advance_launch (i : Instr) (s : State) : (advance i s).launch = s.launch := by
  cases h : i.isPrefixing <;> simp [advance, h]
@[simp] theorem advance_draws (i : Instr) (s : State) : (advance i s).draws = s.draws := by
  cases h : i.isPrefixing <;> simp [advance, h]

/-- A component that completes its instruction executes and leaves the instruction data value clear (R53). -/
theorem idvZero_of_exec_advance {i : Instr} {s t : State} (hi : i.isPrefixing = false)
    (h : exec i (advance i s) = .next t) : IdvZero t := by
  rw [advance_completing hi] at h
  rcases exec_idv h with ⟨-, hidv, hprefixes⟩ | ⟨hi', -⟩
  · exact ⟨hidv, hprefixes⟩
  · rw [hi] at hi'
    cases hi'

/-- A prefixing component is one more of the at most seven, and leaves the value well built (R52, R54). -/
theorem idv_of_exec_prefixing {i : Instr} {s t : State} (hi : i.isPrefixing = true) (h : exec i s = .next t) :
    t.idv.extractLsb' 0 4 = 0#4 ∧ t.prefixes ≤ 7 ∧ t.prefixes ≠ 0 := by
  rcases exec_idv h with ⟨hi', -⟩ | ⟨-, hp, hprefixes, hlow⟩
  · rw [hi] at hi'
    cases hi'
  · exact ⟨hlow, by omega, by omega⟩

/-! ## What every step keeps -/

/-- Settles O10: an exception leaves memory and the value alone; a component writes memory only by words, and either builds
the value under fewer than seven prefixes or leaves it clear. -/
theorem stepKeepsTheInvariant : Obligations.StepKeepsTheInvariant := by
  unfold Obligations.StepKeepsTheInvariant
  intro s t hinv h
  rcases step_next h with ⟨kind, rest, -, -, -, rfl⟩ | ⟨-, -, hexec⟩
  · exact hinv
  · obtain ⟨hmem, -⟩ := hinv
    have hwf : Memory.wf t.mem := exec_mem_wf hexec (by simpa using hmem)
    cases hi : (fetchedInstr s).isPrefixing with
    | true =>
      obtain ⟨hlow, hseven, hsome⟩ := idv_of_exec_prefixing hi hexec
      exact ⟨hwf, hlow, hseven, fun hnone => absurd hnone hsome⟩
    | false =>
      obtain ⟨hidv, hprefixes⟩ := idvZero_of_exec_advance hi hexec
      exact ⟨hwf, by rw [hidv]; rfl, by omega, fun _ => hidv⟩

/-- Settles O12: neither an exception nor an instruction writes the launch. -/
theorem stepKeepsTheLaunch : Obligations.StepKeepsTheLaunch := by
  unfold Obligations.StepKeepsTheLaunch
  intro s t h
  rcases step_next h with ⟨kind, rest, -, -, -, rfl⟩ | ⟨-, -, hexec⟩
  · rfl
  · simpa using exec_launch hexec

/-- Settles O60: an exception uses seven free values, a fetch and an instruction none or more. -/
theorem countOfFreeValuesNeverFalls : Obligations.CountOfFreeValuesNeverFalls := by
  unfold Obligations.CountOfFreeValuesNeverFalls
  intro s t h
  rcases step_next h with ⟨kind, rest, -, -, -, rfl⟩ | ⟨-, -, hexec⟩
  · exact Nat.le_add_right s.draws 7
  · calc s.draws ≤ (fetchSpent s).draws := le_fetchSpent_draws s
      _ = (advance (fetchedInstr s) (fetchSpent s)).draws := (advance_draws _ _).symm
      _ ≤ t.draws := exec_draws hexec

/-- Settles O52: a quiet state takes no exception, so the step is the component's execution. -/
theorem dataValueIsClearBetweenInstructions : Obligations.DataValueIsClearBetweenInstructions := by
  unfold Obligations.DataValueIsClearBetweenInstructions
  intro s t hquiet h hi
  rcases step_next h with ⟨kind, rest, hp, hpending, htake, -⟩ | ⟨-, -, hexec⟩
  · obtain ⟨-, hevents⟩ := hquiet
    obtain ⟨-, -, hnone⟩ := hevents hp
    rw [hnone kind (by rw [hpending]; exact List.mem_cons_self)] at htake
    cases htake
  · exact idvZero_of_exec_advance hi hexec

/-- Settles O59: Status is written whole only by an exception and by `eret`, and both keep the reserved bit. -/
theorem statusBitsHaveTheirWriters : Obligations.StatusBitsHaveTheirWriters := by
  unfold Obligations.StatusBitsHaveTheirWriters
  refine ⟨fun s t h => ?step, fun i s t h heret => ?instruction⟩
  case step =>
    rcases step_next h with ⟨kind, rest, -, -, -, rfl⟩ | ⟨-, -, hexec⟩
    · exact statusBit_setStatusBit_self _ _ _
    · simpa using exec_reserved hexec
  case instruction =>
    obtain ⟨hframe, hwriter⟩ := exec_status h heret
    refine ⟨hframe, fun hflags => hwriter.resolve_left fun hsame => ?_⟩
    rw [hsame] at hflags
    exact hflags.elim (absurd rfl) (absurd rfl)

/-! ## Exceptions -/

theorem interruptsEnabled_iff (st : Word) :
    interruptsEnabled st = true ↔
      statusBit st .globalInterruptEnable = true ∧ statusBit st .localInterruptEnable = true := by
  simp [interruptsEnabled]

/-- Settles O44: an instruction leaves the list alone, so the step took the exception at its head, which could be taken. -/
theorem exceptionsAreTakenOnlyWhenEnabled : Obligations.ExceptionsAreTakenOnlyWhenEnabled := by
  unfold Obligations.ExceptionsAreTakenOnlyWhenEnabled
  intro s t h hpending
  rcases step_next h with ⟨kind, rest, hp, hcons, htake, rfl⟩ | ⟨-, -, hexec⟩
  · refine ⟨hp, kind, hcons, ?_, ?_⟩
    · rintro rfl
      exact (interruptsEnabled_iff s.status).1 htake
    · rintro rfl
      exact htake
  · exact absurd (by simpa using exec_pending hexec) hpending

end Sys2Proof.Machine
end

section
/-! PROOFS. The step as a run of components and of events: what it is in each kind of state (spec/00_scope.md section 5.2,
spec/30_encoding.md sections 2 and 6, spec/60_exceptions.md). -/

namespace Sys2Proof.Machine

/-! ## The step, by what comes first -/

theorem step_of_boundaryEvent {s : State} {o : Result} (h : boundaryEvent s = some o) : step s = o := by
  simp [step, precedingEvent, h]

/-- With no event first and timeslicing on, the step stops (R152, R171). -/
theorem step_of_timeslicing {s : State} (h : boundaryEvent s = none)
    (ht : statusBit s.status .timesliceEnable = true) : step s = .refused .timeslicing := by
  simp [step, precedingEvent, h, ht]

theorem step_of_quiet {s : State} (h : Quiet s) (hm : inRegions s.launch.memMap s.iptr = true) :
    step s = exec (fetchedInstr s) (advance (fetchedInstr s) (fetchSpent s)) := by
  simp [step, precedingEvent_of_quiet h, fetch_of_mapped hm]

/-! ## The events between instructions, in their order -/

theorem boundaryEvent_of_ended {s : State} (hp : s.prefixes = 0) (h : s.launch.endAddr = some s.iptr) :
    boundaryEvent s = some (.refused .endOfRun) := by
  simp [boundaryEvent, hp, h]

theorem boundaryEvent_of_sleep {s : State} (hp : s.prefixes = 0) (hend : NotEnded s)
    (h : statusBit s.status .sleep = true) : boundaryEvent s = some (.refused .sleepState) := by
  rw [NotEnded] at hend
  simp [boundaryEvent, hp, hend, h]

theorem boundaryEvent_of_startNextTask {s : State} (hp : s.prefixes = 0) (hend : NotEnded s)
    (hsleep : statusBit s.status .sleep = false) (h : statusBit s.status .startNextTask = true) :
    boundaryEvent s = some (.refused .processSwitch) := by
  rw [NotEnded] at hend
  simp [boundaryEvent, hp, hend, hsleep, h]

theorem boundaryEvent_of_exception {s : State} {kind : ExceptionKind} {rest : List ExceptionKind}
    (hp : s.prefixes = 0) (hend : NotEnded s) (hsched : NoSchedule s) (hpending : s.pending = kind :: rest)
    (htake : canTake s.status kind = true) :
    boundaryEvent s = some (.next (takeException kind { s with pending := rest })) := by
  rw [NotEnded] at hend
  obtain ⟨hnext, hsleep⟩ := hsched
  simp [boundaryEvent, hp, hend, hnext, hsleep, hpending, htake]

/-- The exceptions behind one that cannot be taken wait. -/
theorem boundaryEvent_of_head {s : State}
    (h : s.prefixes = 0 →
      NotEnded s ∧ NoSchedule s ∧ ∀ kind, s.pending.head? = some kind → canTake s.status kind = false) :
    boundaryEvent s = none := by
  by_cases hp : s.prefixes = 0
  · obtain ⟨hend, ⟨hnext, hsleep⟩, hhead⟩ := h hp
    rw [NotEnded] at hend
    cases hq : s.pending with
    | nil => simp [boundaryEvent, hend, hnext, hsleep, hq]
    | cons kind rest => simp [boundaryEvent, hend, hnext, hsleep, hq, hhead kind (by rw [hq]; rfl)]
  · exact boundaryEvent_of_inside hp

/-- Settles O58: each stop is the first event its premises leave. -/
theorem stepStopsInPlaceOfAnInstruction : Obligations.StepStopsInPlaceOfAnInstruction := by
  unfold Obligations.StepStopsInPlaceOfAnInstruction
  intro s
  exact ⟨fun hp hend => step_of_boundaryEvent (boundaryEvent_of_ended hp hend),
    fun hp hend hsleep => step_of_boundaryEvent (boundaryEvent_of_sleep hp hend hsleep),
    fun hp hend hsleep hnext => step_of_boundaryEvent (boundaryEvent_of_startNextTask hp hend hsleep hnext),
    fun hevents ht => step_of_timeslicing (boundaryEvent_of_head hevents) ht⟩

/-! ## Taking an exception and returning from it -/

/-- The handler's Status is what its modes give, but for the reserved bit (R25, R144). -/
theorem statusBit_takeException (kind : ExceptionKind) (s : State) {f : StatusBit} (hf : f ≠ .reserved) :
    statusBit (takeException kind s).status f = statusBit (handlerModes kind s.status (s.freeWord 4)) f :=
  statusBit_setStatusBit_of_ne _ _ hf

/-- Settles O45: the event between instructions is the exception, and its handler's modes are those of R144. -/
theorem exceptionEntrySavesAndSetsTheModes : Obligations.ExceptionEntrySavesAndSetsTheModes := by
  unfold Obligations.ExceptionEntrySavesAndSetsTheModes
  intro s kind rest hp hend hsched hpending htake
  have huser : statusBit (takeException kind { s with pending := rest }).status .userMode = false := by
    rw [statusBit_takeException _ _ (by decide), statusBit_handlerModes_user]
  have hinterrupt : statusBit (takeException kind { s with pending := rest }).status .interruptMode =
      (decide (kind = .interrupt) || statusBit s.status .interruptMode) := by
    rw [statusBit_takeException _ _ (by decide), statusBit_handlerModes_interrupt]
  have htrap : statusBit (takeException kind { s with pending := rest }).status .trapMode =
      decide (kind = .timesliceTrap) := by
    rw [statusBit_takeException _ _ (by decide), statusBit_handlerModes_trap]
  refine ⟨_, step_of_boundaryEvent (boundaryEvent_of_exception hp hend hsched hpending htake), rfl, rfl, huser,
    statusBit_setStatusBit_self _ _ _, ?_, ?_, rfl, rfl, rfl, rfl, rfl, fun _ => rfl, rfl⟩
  · rintro rfl
    exact ⟨hinterrupt, htrap⟩
  · rintro rfl
    exact ⟨htrap, hinterrupt⟩

/-- The Status saved is that of the code interrupted, but for the reserved bit (R25, R142). -/
theorem getLsbD_context_status (s : State) {k : Nat} (hk : k < 32) (hr : k ≠ StatusBit.reserved.position) :
    s.context.status.getLsbD k = s.status.getLsbD k := by
  rw [State.context, State.readStatus, getLsbD_setStatusBit _ _ _ _ hk, if_neg hr]

/-- A return holds the process state saved last, and drops it. -/
theorem returnFromException_holds {s : State} {c : Context} {rest : List Context} (h : s.saved = c :: rest) :
    HoldsContext (returnFromException s) c ∧ (returnFromException s).saved = rest := by
  rw [returnFromException_cons h]
  exact ⟨restore_holds (signalController s) c, rfl⟩

theorem returnFromException_holds_free {s : State} (h : s.saved = []) :
    HoldsContext (returnFromException s) s.freeContext ∧ (returnFromException s).saved = [] := by
  rw [returnFromException_nil h]
  exact ⟨restore_holds (signalController s) s.freeContext, h⟩

theorem exec_eret (s : State) : exec .eret s = .next (returnFromException s) := rfl

/-- Settles O46: `eret` holds the context the exception saved, which is the interrupted code's but for the reserved bit. -/
theorem exceptionsPreserveTheProcessState : Obligations.ExceptionsPreserveTheProcessState := by
  unfold Obligations.ExceptionsPreserveTheProcessState
  intro kind s h hsaved
  rw [takeException_saved] at hsaved
  obtain ⟨⟨hstack, hiptr, hwptr, htdesc, hstatus⟩, hrest⟩ := returnFromException_holds hsaved
  refine ⟨_, exec_eret h, hstack, hiptr, hwptr, htdesc, fun k hk hr => ?_, hrest, returnFromException_ioreg h,
    fun a => by rw [returnFromException_mem]⟩
  have hreserved := hr .reserved (by simp)
  rw [hstatus k hk hreserved, getLsbD_context_status s hk hreserved]

/-- Whether a return signals, read from the three mode bits (R119, R144). -/
theorem signalRequired_of_undecided {st : Word} {free : Bool}
    (h : (statusBit st .userMode = false ∧ statusBit st .interruptMode = false ∧ statusBit st .trapMode = false) ∨
      (statusBit st .userMode = true ∧ (statusBit st .interruptMode = true ∨ statusBit st .trapMode = true))) :
    signalRequired st free = free := by
  rcases h with ⟨hu, hi, ht⟩ | ⟨hu, hi | ht⟩
  · simp [signalRequired, hu, hi, ht]
  · cases ht : statusBit st .trapMode <;> simp [signalRequired, hu, hi, ht]
  · cases hi : statusBit st .interruptMode <;> simp [signalRequired, hu, hi, ht]

/-- Settles O42: a return holds the saved context, or free values where there is none, and signals as the modes say. -/
theorem exceptionReturnRestoresTheProcessState : Obligations.ExceptionReturnRestoresTheProcessState := by
  unfold Obligations.ExceptionReturnRestoresTheProcessState
  intro s
  refine ⟨_, exec_eret s, fun c rest => returnFromException_holds, returnFromException_holds_free, ?signals,
    statusBit_returnFromException_reserved s, returnFromException_ioreg s, returnFromException_idv s,
    returnFromException_prefixes s, returnFromException_pending s, returnFromException_launch s,
    fun a => by rw [returnFromException_mem], returnFromException_draws s⟩
  case signals =>
    rintro _ _ _ rfl rfl rfl
    rw [returnFromException_controllerSignals]
    refine ⟨?_, ?_, ?_⟩
    · rintro ⟨hu, hi, ht⟩
      rw [signalRequired_of_handler hu hi ht]
      rfl
    · rintro (⟨hu, hi, ht⟩ | ⟨hu, ht⟩)
      · rw [signalRequired_of_user hu hi ht]
        rfl
      · rw [signalRequired_of_trap hu ht]
        rfl
    · intro h
      rw [signalRequired_of_undecided h]
      rfl

/-! ## A step that executes a component -/

/-- Settles O13: nothing comes before the fetch, and the fetch is the fault. -/
theorem fetchOutsideMemMapFaults : Obligations.FetchOutsideMemMapFaults := by
  unfold Obligations.FetchOutsideMemMapFaults
  intro s hquiet hm
  simp [step, precedingEvent_of_quiet hquiet, fetch, hm]

/-- Settles O8: the byte and the count of free values depend on the reserved addresses, the rest on the component alone. -/
theorem stepRunsTheDecodedComponent : Obligations.StepRunsTheDecodedComponent := by
  unfold Obligations.StepRunsTheDecodedComponent
  intro s hquiet hm
  rw [step_of_quiet hquiet hm]
  cases hr : inRegions s.launch.reserved s.iptr with
  | false =>
    refine ⟨Memory.byte s.mem s.iptr, 0, fun _ => ⟨rfl, rfl⟩, fun h => (by cases h), ?_⟩
    rintro _ rfl
    rw [fetchSpent_of_unreserved hr, fetchedInstr, fetchedByte_of_unreserved hr]
    exact ⟨fun hi => by rw [advance_prefixing hi]; rfl, fun hi => by rw [advance_completing hi]; rfl⟩
  | true =>
    have hbyte : fetchedByte s = byteOf (Config.freeWord s.draws) 0 := if_pos hr
    have hspent : fetchSpent s = s.spend 1 := if_pos hr
    refine ⟨byteOf (Config.freeWord s.draws) 0, 1, fun h => (by cases h), fun _ => ⟨rfl, rfl⟩, ?_⟩
    rintro _ rfl
    rw [hspent, fetchedInstr, hbyte]
    exact ⟨fun hi => by rw [advance_prefixing hi]; rfl, fun hi => by rw [advance_completing hi]; rfl⟩

/-- Settles O11: every field a premise reads is zero, empty or absent at reset. -/
theorem resetMeetsTheInvariant : Obligations.ResetMeetsTheInvariant := by
  unfold Obligations.ResetMeetsTheInvariant
  have htimeslice : NoTimeslice State.reset := rfl
  have hsched : NoSchedule State.reset := ⟨rfl, rfl⟩
  refine ⟨⟨Memory.wf_reset, rfl, Nat.zero_le 7, fun _ => rfl⟩, ⟨rfl, rfl⟩, ⟨htimeslice, fun _ => ⟨?_, hsched, ?_⟩⟩,
    htimeslice, rfl⟩
  · exact fun h => by cases h
  · exact fun _ h => by cases h

end Sys2Proof.Machine
end

section
/-! PROOFS. The components of one instruction: stepping through them is one execution of it, and a component placed at Iptr is
the next one (spec/30_encoding.md sections 2 and 6, spec/70_reset_and_hazards.md section 1). -/

namespace Sys2Proof.Machine

/-! ## Runs of steps -/

theorem run_succ_of_next (M : Host.Core) {s t : M.State} (h : M.step s = .next t) (k : Nat) :
    M.run (k + 1) s = M.run k t := by
  rw [Host.Core.run, h]

theorem run_one (M : Host.Core) (s : M.State) : M.run 1 s = M.step s := by
  rw [Host.Core.run]
  cases M.step s <;> rfl

/-! ## Code at Iptr -/

theorem codeAt_head {s : State} {b : Byte} {bs : List Byte} (h : CodeAt s (b :: bs)) :
    Memory.byte s.mem s.iptr = b ∧ inRegions s.launch.memMap s.iptr = true ∧
      inRegions s.launch.reserved s.iptr = false := by
  simpa using h 0 (Nat.succ_pos _)

/-- The code after the first component is the code one byte on. -/
theorem codeAt_tail {s t : State} {b : Byte} {bs : List Byte} (h : CodeAt s (b :: bs)) (hmem : t.mem = s.mem)
    (hlaunch : t.launch = s.launch) (hiptr : t.iptr = s.iptr + 1#32) : CodeAt t bs := by
  intro k hk
  rw [hmem, hlaunch, hiptr, add_one_add_ofNat]
  simpa using h (k + 1) (Nat.succ_lt_succ hk)

/-- The step at code whose first component is known. -/
theorem step_of_codeAt {s : State} {b : Byte} {bs : List Byte} (hquiet : Quiet s) (h : CodeAt s (b :: bs)) :
    step s = exec (decodeComponent s.launch.functions s.idv b)
      (advance (decodeComponent s.launch.functions s.idv b) s) := by
  obtain ⟨hbyte, hm, hr⟩ := codeAt_head h
  rw [step_of_quiet hquiet hm, fetchedInstr, fetchedByte_of_unreserved hr, fetchSpent_of_unreserved hr, hbyte]

/-- A prefixing component executes as the decoder takes it: the next instruction data value, one byte on. -/
theorem exec_decodeComponent_of_prefixing {t : FnTable} {s : State} {b : Byte} {v : Word}
    (hv : prefixValue? t s.idv b = some v) (hp : s.prefixes < 7) :
    exec (decodeComponent t s.idv b) (advance (decodeComponent t s.idv b) s) =
      .next { s with iptr := s.iptr + 1#32, idv := v, prefixes := s.prefixes + 1 } := by
  have hi : (decodeComponent t s.idv b).isPrefixing = true := by rw [decodeComponent_isPrefixing, hv]; rfl
  rw [advance_prefixing hi]
  unfold prefixValue? at hv
  split at hv <;> cases hv
  case h_1 hf =>
    rw [decodeComponent, hf]
    exact extendIdv_of_lt (s := s.setIptr (s.iptr + 1#32)) hp _
  case h_2 hf =>
    rw [decodeComponent, hf]
    exact extendIdv_of_lt (s := s.setIptr (s.iptr + 1#32)) hp _

/-- The decoder leaves no more bytes than it was given. -/
theorem decodeFrom_length_le {t : FnTable} {idv : Word} {k : Nat} {bs rest : List Byte} {i : Instr}
    (h : decodeFrom t idv k bs = .ok (i, rest)) : rest.length < bs.length := by
  induction bs generalizing idv k with
  | nil => cases h
  | cons b bs ih =>
    rcases decodeFrom_ok h with ⟨v, -, -, hrest⟩ | ⟨-, -, rfl⟩
    · exact (ih hrest).trans (Nat.lt_succ_self _)
    · exact Nat.lt_succ_self _

/-- Wherever an instruction stands in its chain, the steps through the rest of it are one execution of it, the instruction
data value clear. -/
theorem run_of_decodeFrom {s : State} {bs rest : List Byte} {i : Instr} (hquiet : Quiet s) (hcode : CodeAt s bs)
    (h : decodeFrom s.launch.functions s.idv s.prefixes bs = .ok (i, rest)) :
    Host.Core.run Sys2Proof.core (bs.length - rest.length) s =
      exec i { s with
        iptr := s.iptr + BitVec.ofNat 32 (bs.length - rest.length)
        idv := 0#32
        prefixes := 0 } := by
  induction bs generalizing s with
  | nil => cases h
  | cons b bs ih =>
    have hstep := step_of_codeAt hquiet hcode
    rcases decodeFrom_ok h with ⟨v, hv, hp, hrest⟩ | ⟨hnone, rfl, rfl⟩
    · have hlen := decodeFrom_length_le hrest
      have hcount : (b :: bs).length - rest.length = (bs.length - rest.length) + 1 := by
        rw [List.length_cons]
        omega
      rw [exec_decodeComponent_of_prefixing hv hp] at hstep
      have hcode' : CodeAt { s with iptr := s.iptr + 1#32, idv := v, prefixes := s.prefixes + 1 } bs :=
        codeAt_tail hcode rfl rfl rfl
      have hquiet' : Quiet { s with iptr := s.iptr + 1#32, idv := v, prefixes := s.prefixes + 1 } :=
        ⟨hquiet.1, fun hp0 => absurd hp0 (Nat.succ_ne_zero _)⟩
      rw [hcount, run_succ_of_next Sys2Proof.core hstep, ih hquiet' hcode' hrest, add_one_add_ofNat]
    · have hi : (decodeComponent s.launch.functions s.idv b).isPrefixing = false := by
        rw [decodeComponent_isPrefixing, hnone]
        rfl
      have hcount : (b :: rest).length - rest.length = 1 := by
        rw [List.length_cons]
        omega
      rw [advance_completing hi] at hstep
      rw [hcount]
      exact (run_one Sys2Proof.core s).trans hstep

/-- Settles O9: between instructions the value is zero, so the steps through the chain are the decoder's walk over it. -/
theorem stepsRunTheWholeInstruction : Obligations.StepsRunTheWholeInstruction := by
  unfold Obligations.StepsRunTheWholeInstruction
  rintro s bs i rest ⟨hidv, hprefixes⟩ hquiet hcode h
  rw [run_of_decodeFrom hquiet hcode (by rw [hidv, hprefixes]; exact h)]
  rw [← hidv, ← hprefixes]

/-! ## Placing code at Iptr -/

/-- The launch of placed code has memory at Iptr. -/
theorem inRegions_memMap_admitting (l : Launch) (a : Word) : inRegions (l.admitting a).memMap a = true := by
  cases h : allInRegions l.memMap a 8 with
  | true => simpa [Launch.admitting, h] using (allInRegions_iff _ _ _).1 h 0 (by decide)
  | false =>
    have hself : (Region.mk a 8).contains a = true := by
      rw [Region.contains, BitVec.sub_self]
      rfl
    simp [Launch.admitting, h, inRegions, hself]

/-- It keeps no reserved region that touches the code. -/
theorem inRegions_reserved_admitting (l : Launch) (a : Word) : inRegions (l.admitting a).reserved a = false := by
  rw [inRegions, List.any_eq_false]
  intro r hr hcontains
  have hclear : someInRegions [r] a 8 = false := by simpa using (List.mem_filter.1 hr).2
  have hfirst := (someInRegions_eq_false_iff [r] a 8).1 hclear 0 (by decide)
  simp [inRegions, hcontains] at hfirst

theorem endAddr_admitting (l : Launch) (a : Word) : (l.admitting a).endAddr ≠ some a := by
  unfold Launch.admitting
  dsimp only
  split_ifs with h
  · simp
  · exact h

/-- No event comes before the code placed. -/
theorem placeCode_quiet (s : State) (w : Nat) : Quiet (placeCode s w) := by
  refine ⟨statusBit_setStatusBit_self _ _ _, fun _ => ⟨endAddr_admitting s.launch s.iptr, ⟨?_, ?_⟩, ?_⟩⟩
  · simp [placeCode, statusBit_setStatusBit]
  · simp [placeCode, statusBit_setStatusBit]
  · exact fun _ h => by cases h

/-- The first byte placed is the least significant one. -/
theorem byte_placeCode (s : State) (b : Byte) : Memory.byte (placeCode s b.toNat).mem s.iptr = b := by
  have hout : ∀ k < 4, s.iptr ≠ s.iptr + 4#32 + BitVec.ofNat 32 k := fun k hk => by
    rw [BitVec.add_assoc, ← BitVec.ofNat_add]
    exact ne_add_ofNat (by omega) (by omega)
  have hfirst : Memory.byte (placeCode s b.toNat).mem s.iptr = byteOf (BitVec.ofNat 32 b.toNat) 0 := by
    have h := Memory.byte_write_inside s.mem s.iptr (BitVec.ofNat 32 b.toNat) (n := 4) (k := 0) (by decide) (by decide)
    rw [BitVec.add_zero] at h
    rw [← h]
    exact Memory.byte_write_outside _ _ hout
  rw [hfirst]
  apply BitVec.eq_of_toNat_eq
  have hb := b.isLt
  rw [toNat_byteOf, BitVec.toNat_ofNat]
  omega

/-- Settles O14: the code placed is at Iptr, nothing comes before it, and the value it is decoded under is zero. -/
theorem fetchWordRunsNext : Obligations.FetchWordRunsNext := by
  unfold Obligations.FetchWordRunsNext
  rintro s b _ rfl
  have hword : b.toNat % 2 ^ 8 = b.toNat := Nat.mod_eq_of_lt b.isLt
  refine ⟨by rw [decodeTableWord, if_neg (by decide), hword, BitVec.ofNat_toNat, BitVec.setWidth_eq], ?_⟩
  rw [State.withFetchWord, hword]
  have hcode : CodeAt (placeCode s b.toNat) [b] := by
    intro k hk
    obtain rfl : k = 0 := by simpa using hk
    simpa using ⟨byte_placeCode s b, inRegions_memMap_admitting s.launch s.iptr,
      inRegions_reserved_admitting s.launch s.iptr⟩
  exact step_of_codeAt (placeCode_quiet s _) hcode

end Sys2Proof.Machine
end

section
/-! PROOFS. The word instructions: a word reads back as written, and `ldl`, `ldnl`, `stl` and `stnl` act where the access is
admitted and stop where it is not (spec/20_memory.md sections 2 to 6, spec/41_primary.md R87, R89, R91, R92). -/

namespace Sys2Proof.Machine

/-! ## The bytes of a word read (R33, R34) -/

/-- Byte `k` of a value read is the byte of memory `k` places up. -/
theorem byteOf_read (m : Memory) (a : Word) {n k : Nat} (hn : n ≤ 4) (hk : k < n) :
    byteOf (Memory.read m a n) k = Memory.byte m (a + BitVec.ofNat 32 k) := by
  induction n generalizing a k with
  | zero => omega
  | succ n ih =>
    have hbyte := (Memory.byte m a).isLt
    have hread := Memory.toNat_read_succ m a (n := n) (by omega)
    apply BitVec.eq_of_toNat_eq
    cases k with
    | zero =>
      rw [toNat_byteOf, hread, BitVec.add_zero]
      omega
    | succ k =>
      have hdigits : ((Memory.byte m a).toNat + 256 * (Memory.read m (a + 1#32) n).toNat) / 256 =
          (Memory.read m (a + 1#32) n).toNat := by omega
      rw [toNat_byteOf, hread, Nat.pow_succ', ← Nat.div_div_eq_div_mul, hdigits, ← toNat_byteOf,
        ih (a + 1#32) (by omega) (by omega), add_one_add_ofNat]

/-- A word reads back as written. -/
theorem read_write_word (m : Memory) (a v : Word) : Memory.read (Memory.write m a 4 v) a 4 = v :=
  eq_of_byteOf_eq fun k hk => by
    rw [byteOf_read _ a (by decide) hk, Memory.byte_write_inside m a v (by decide) hk]

theorem add_ofNat_inj (a : Word) {j k : Nat} (hj : j < 4) (hk : k < 4) :
    a + BitVec.ofNat 32 j = a + BitVec.ofNat 32 k ↔ j = k := by
  refine ⟨fun h => ?_, fun h => by rw [h]⟩
  have hnat := congrArg BitVec.toNat (BitVec.add_right_inj a |>.1 h)
  simp only [BitVec.toNat_ofNat] at hnat
  omega

/-- Settles O54: each byte of the word read is the byte of memory at its place, and a byte written later is at one of the
four. -/
theorem wordReadsBackAsWritten : Obligations.WordReadsBackAsWritten := by
  unfold Obligations.WordReadsBackAsWritten
  intro m a v b
  refine ⟨read_write_word m a v, fun k hk j hj => ?_⟩
  rw [byteOf_read _ a (by decide) hj, Memory.byte_setByte, Memory.byte_write_inside m a v (by decide) hj]
  simp only [add_ofNat_inj a hj hk]

/-! ## Where a word access is a fault (R35, R36, R39) -/

theorem accessFault_of_unmapped (s : State) {a : Word} (ha : a.toNat % 4 = 0)
    (h : ∃ k < 4, inRegions s.launch.memMap (a + BitVec.ofNat 32 k) = false) :
    accessFault s a 4 = some .outsideMemMap := by
  obtain ⟨k, hk, hout⟩ := h
  have hmap : allInRegions s.launch.memMap a 4 = false := by
    rw [Bool.eq_false_iff, Ne, allInRegions_iff]
    intro hall
    rw [hall k hk] at hout
    cases hout
  simp [accessFault, aligned, ha, hmap]

theorem accessFault_of_reserved (s : State) {a : Word} (ha : a.toNat % 4 = 0)
    (hall : ∀ k < 4, inRegions s.launch.memMap (a + BitVec.ofNat 32 k) = true)
    (h : ∃ k < 4, inRegions s.launch.reserved (a + BitVec.ofNat 32 k) = true) :
    accessFault s a 4 = some .reservedAddress := by
  obtain ⟨k, hk, hin⟩ := h
  have hreserved : someInRegions s.launch.reserved a 4 = true := by
    rw [← Bool.not_eq_false, someInRegions_eq_false_iff]
    intro hnone
    rw [hnone k hk] at hin
    cases hin
  simp [accessFault, aligned, ha, (allInRegions_iff s.launch.memMap a 4).2 hall, hreserved]

theorem withWord_of_fault {s : State} {a : Word} {f : Fault} (h : accessFault s a 4 = some f) (k : Word → State) :
    withWord s a k = .fault f := by
  simp [withWord, load, h]

theorem store_of_fault {s : State} {a : Word} {f : Fault} (h : accessFault s a 4 = some f) (v : Word) :
    store s a 4 v = .fault f := by
  simp [store, h]

/-- A store into the program text where the access is admitted (R44). -/
theorem store_of_text {s : State} {a : Word} (h : WordAdmitted s a) (ht : ¬ TextFixed s a 4) (v : Word) :
    store s a 4 v = .refused .storeToCode := by
  have htext : someInRegions s.launch.text a 4 = true := by
    rw [← Bool.not_eq_false, someInRegions_eq_false_iff]
    exact ht
  simp [store, (accessFault_word_eq_none_iff s a).2 h, htext]

/-! ## The four instructions, by the access they make -/

theorem exec_ldl (n : Word) (s : State) : exec (.ldl n) s = withWord s (wordOffset s.wptr n) s.push := rfl

theorem exec_ldnl (n : Word) (s : State) : exec (.ldnl n) s = withWord s (wordOffset s.areg n) s.setA := rfl

theorem exec_stl (n : Word) (s : State) :
    exec (.stl n) s = andThen (store s (wordOffset s.wptr n) 4 s.areg)
      (fun t => (t.popLeaving (s.freeWord 0)).spend 1) := rfl

theorem exec_stnl (n : Word) (s : State) :
    exec (.stnl n) s = andThen (store s (wordOffset s.areg n) 4 s.breg)
      (fun t => (t.setStack s.creg (s.freeWord 0) (s.freeWord 1)).spend 2) := rfl

theorem setA_onlyStackChanged (s : State) (v : Word) : OnlyStackChanged s (s.setA v) := by
  simp [OnlyStackChanged, SystemUnchanged, MemoryUnchanged]

theorem setA_stackIs (s : State) (v : Word) : StackIs (s.setA v) v s.breg s.creg :=
  ⟨State.setA_areg s v, State.setA_breg s v, State.setA_creg s v⟩

/-- Settles O25: the load answers the word, which is pushed. -/
theorem loadLocalPushesTheWord : Obligations.LoadLocalPushesTheWord := by
  unfold Obligations.LoadLocalPushesTheWord
  intro n s h
  exact ⟨_, (exec_ldl n s).trans (withWord_of_admitted h _), push_stackIs s _, push_onlyStackChanged s _⟩

/-- Settles O26: the load answers the word, which replaces Areg; `ldnlp` makes no access. -/
theorem loadNonLocalReplacesAreg : Obligations.LoadNonLocalReplacesAreg := by
  unfold Obligations.LoadNonLocalReplacesAreg
  intro n s
  exact ⟨fun h => ⟨_, (exec_ldnl n s).trans (withWord_of_admitted h _), setA_stackIs s _, setA_onlyStackChanged s _⟩,
    ⟨s.setA (wordOffset s.areg n), rfl, setA_stackIs s _, setA_onlyStackChanged s _⟩⟩

theorem exec_stl_of_admitted {n : Word} {s : State} (h : WordAdmitted s (wordOffset s.wptr n))
    (ht : TextFixed s (wordOffset s.wptr n) 4) :
    exec (.stl n) s =
      .next ((({ s with mem := Memory.write s.mem (wordOffset s.wptr n) 4 s.areg } : State).popLeaving
        (s.freeWord 0)).spend 1) := by
  rw [exec_stl, store_of_admitted h ht, andThen_of_next]

theorem exec_stnl_of_admitted {n : Word} {s : State} (h : WordAdmitted s (wordOffset s.areg n))
    (ht : TextFixed s (wordOffset s.areg n) 4) :
    exec (.stnl n) s =
      .next ((({ s with mem := Memory.write s.mem (wordOffset s.areg n) 4 s.breg } : State).setStack s.creg
        (s.freeWord 0) (s.freeWord 1)).spend 2) := by
  rw [exec_stnl, store_of_admitted h ht, andThen_of_next]

/-- Settles O27: the store writes the word and no byte outside it, and the pop reaches the stack alone. -/
theorem storeLocalWritesTheWord : Obligations.StoreLocalWritesTheWord := by
  unfold Obligations.StoreLocalWritesTheWord
  intro n s h ht
  exact ⟨_, exec_stl_of_admitted h ht, read_write_word s.mem _ s.areg,
    fun b hb => Memory.byte_write_outside s.mem s.areg hb, ⟨rfl, rfl, rfl⟩, rfl, rfl, rfl, by simp [SystemUnchanged],
    rfl⟩

/-- Settles O28: the store writes the word and no byte outside it, and the stack takes Creg and two free words. -/
theorem storeNonLocalWritesTheWord : Obligations.StoreNonLocalWritesTheWord := by
  unfold Obligations.StoreNonLocalWritesTheWord
  intro n s h ht
  exact ⟨_, exec_stnl_of_admitted h ht, read_write_word s.mem _ s.breg,
    fun b hb => Memory.byte_write_outside s.mem s.breg hb, ⟨rfl, rfl, rfl⟩, rfl, rfl, rfl, by simp [SystemUnchanged],
    rfl⟩

/-- The four instructions pass on the fault of their access. -/
theorem exec_word_of_fault {n : Word} {s : State} {load store : Instr} {a : Word}
    (hi : (load = .ldl n ∧ store = .stl n ∧ a = wordOffset s.wptr n) ∨
      (load = .ldnl n ∧ store = .stnl n ∧ a = wordOffset s.areg n)) {f : Fault}
    (hf : accessFault s a 4 = some f) : exec load s = .fault f ∧ exec store s = .fault f := by
  rcases hi with ⟨rfl, rfl, rfl⟩ | ⟨rfl, rfl, rfl⟩
  · rw [exec_ldl, withWord_of_fault hf, exec_stl, store_of_fault hf, andThen_of_fault]
    exact ⟨rfl, rfl⟩
  · rw [exec_ldnl, withWord_of_fault hf, exec_stnl, store_of_fault hf, andThen_of_fault]
    exact ⟨rfl, rfl⟩

/-- Settles O29: each premise is where the checks of an access stop. -/
theorem inadmissibleWordAccessFaults : Obligations.InadmissibleWordAccessFaults := by
  unfold Obligations.InadmissibleWordAccessFaults
  intro n s load store a hi
  exact ⟨fun ha => exec_word_of_fault hi (accessFault_of_misaligned s ha),
    fun ha hout => exec_word_of_fault hi (accessFault_of_unmapped s ha hout),
    fun ha hall hin => exec_word_of_fault hi (accessFault_of_reserved s ha hall hin)⟩

/-- Settles O30: a load or store answers a next state only where its access is admitted, a store only outside the text. -/
theorem wordInstructionsNeedAdmittedAddresses : Obligations.WordInstructionsNeedAdmittedAddresses := by
  unfold Obligations.WordInstructionsNeedAdmittedAddresses
  intro n s t
  refine ⟨fun h => (withWord_next h).1, fun h => (withWord_next h).1, fun h => ?_, fun h => ?_⟩
  all_goals
    obtain ⟨_, hstore, -⟩ := andThen_next h
    obtain ⟨hadmitted, htext, -⟩ := store_next hstore
    exact ⟨hadmitted, htext⟩

/-- Settles O31: the store is refused, and the instruction with it. -/
theorem storeIntoTheProgramTextIsRefused : Obligations.StoreIntoTheProgramTextIsRefused := by
  unfold Obligations.StoreIntoTheProgramTextIsRefused
  intro n s
  exact ⟨fun h ht => by rw [exec_stl, store_of_text h ht, andThen_of_refused],
    fun h ht => by rw [exec_stnl, store_of_text h ht, andThen_of_refused]⟩

end Sys2Proof.Machine
end

section
/-! PROOFS. The prefixing components, `opr`, and the primary instructions that make no access (spec/40_prefix_operate.md,
spec/41_primary.md). -/

namespace Sys2Proof.Machine

/-! ## The instruction data value, as a number (R70, R71) -/

theorem toNat_pfixValue (idv : Word) (d : Nibble) :
    (pfixValue idv d).toNat = (idv ||| d.setWidth 32).toNat * 16 % 4294967296 := by
  rw [pfixValue, BitVec.toNat_shiftLeft, Nat.shiftLeft_eq]
  rfl

theorem toNat_nfixValue (idv : Word) (d : Nibble) :
    (nfixValue idv d).toNat = (4294967295 - (idv ||| d.setWidth 32).toNat) * 16 % 4294967296 := by
  rw [nfixValue, BitVec.toNat_shiftLeft, BitVec.toNat_not, Nat.shiftLeft_eq]
  rfl

/-- Settles O15: the value is shifted while fewer than seven came before, and the eighth is refused. -/
theorem prefixBuildsTheDataValue : Obligations.PrefixBuildsTheDataValue := by
  unfold Obligations.PrefixBuildsTheDataValue
  intro d s
  exact ⟨fun h => ⟨_, extendIdv_of_lt h _, toNat_pfixValue s.idv d, rfl⟩, fun h => extendIdv_of_full h _⟩

/-- Settles O16: the value is complemented and shifted while fewer than seven came before, and the eighth is refused. -/
theorem negativePrefixComplementsTheDataValue : Obligations.NegativePrefixComplementsTheDataValue := by
  unfold Obligations.NegativePrefixComplementsTheDataValue
  intro d s
  exact ⟨fun h => ⟨_, extendIdv_of_lt h _, toNat_nfixValue s.idv d, rfl⟩, fun h => extendIdv_of_full h _⟩

/-! ## What `opr` does, by the row its code has (R61, R72) -/

theorem exec_opr_of_row {n : Word} {s : State} {i : Instr} (h : operationOf s.launch n = some i) :
    exec (.opr n) s =
      if i.lostOperation && !s.launch.runLost then .refused (.lostDefinition i.mnemonic) else execOperation n i s := by
  simp [exec, execOpr, h]

theorem exec_opr_of_no_row {n : Word} {s : State} (h : operationOf s.launch n = none) :
    exec (.opr n) s = .refused (.unknownOperation n) := by
  simp [exec, execOpr, h]

/-- `opr` executes as the secondary instruction of its row where that is one the launch runs. -/
theorem exec_opr_of_runs {n : Word} {s : State} {i : Instr} (h : operationOf s.launch n = some i)
    (hsec : i.isSecondary = true) (hruns : i.lostOperation = false ∨ s.launch.runLost = true) :
    exec (.opr n) s = exec i s := by
  rw [exec_opr_of_row h, if_neg (by rcases hruns with h | h <;> simp [h]), execOperation_of_secondary hsec]

theorem lostOperation_of_not_secondary {i : Instr} (h : i.isSecondary = false) : i.lostOperation = false := by
  cases i <;> simp_all [Instr.isSecondary, Instr.lostOperation]

/-- The two rows the spec gives are there in every launch, and neither definition is lost (R60). -/
theorem operationOf_of_opCode {n : Word} {i : Instr} (h : opCode n = some i) (l : Launch) :
    operationOf l n = some i ∧ (i = .add ∨ i = .and) := by
  refine ⟨by simp [operationOf, h], ?_⟩
  unfold opCode at h
  split_ifs at h <;> cases h
  · exact .inl rfl
  · exact .inr rfl

/-- Settles O17: each clause is one kind of row, and the rows of `add` and `and` run in every launch. -/
theorem operateExecutesTheSelectedInstruction : Obligations.OperateExecutesTheSelectedInstruction := by
  unfold Obligations.OperateExecutesTheSelectedInstruction
  intro n s
  refine ⟨fun i h => ?_, fun i h => exec_opr_of_runs h, fun i h hlost hrun => ?_, fun i h hsec => ?_,
    exec_opr_of_no_row⟩
  · obtain ⟨hrow, rfl | rfl⟩ := operationOf_of_opCode h s.launch
    · exact ⟨_, (exec_opr_of_runs hrow rfl (.inl rfl)).trans rfl, rfl⟩
    · exact ⟨_, (exec_opr_of_runs hrow rfl (.inl rfl)).trans rfl, rfl⟩
  · rw [exec_opr_of_row h, if_pos (by simp [hlost, hrun])]
  · rw [exec_opr_of_row h, if_neg (by simp [lostOperation_of_not_secondary hsec]), execOperation_of_other hsec]

/-! ## The frames of the primary instructions -/

/-- An arithmetic instruction reaches the stack and the Status fields it writes, and nothing else. -/
theorem arithmetic_frame {fields : List StatusBit} {s : State} {st : Word}
    (h : StatusUnchangedBut fields s (s.setStatus st)) (a b c : Word) (n : Nat) :
    OnlyStackAndStatusChanged fields s (((s.setStack a b c).setStatus st).spend n) :=
  ⟨rfl, rfl, h, by simp [SystemUnchanged], fun _ => rfl⟩

theorem exec_adc (n : Word) (s : State) :
    exec (.adc n) s = .next (((s.setStack (s.areg + n) s.breg s.creg).setStatus
      (undefinedFlags s.status (s.freeBit 0) (s.freeBit 1))).spend 2) := rfl

theorem exec_ajw (n : Word) (s : State) : exec (.ajw n) s = .next (s.setWptr (wordOffset s.wptr n)) := rfl

theorem exec_eqc (n : Word) (s : State) : exec (.eqc n) s = .next (s.setA (boolWord (s.areg == n))) := rfl

/-- Settles O18: the sum is in Areg and each flag is the free bit it was given. -/
theorem addConstantAddsToAreg : Obligations.AddConstantAddsToAreg := by
  unfold Obligations.AddConstantAddsToAreg
  intro n s
  exact ⟨_, exec_adc n s, BitVec.toNat_add s.areg n, rfl, rfl, statusBit_undefinedFlags_overflow _ _ _,
    statusBit_undefinedFlags_underflow _ _ _, arithmetic_frame (undefinedFlags_unchangedBut s _ _) _ _ _ _, rfl⟩

/-- Settles O19: Wptr moves by a word offset, which keeps the byte selector. -/
theorem adjustWorkSpaceMovesWptr : Obligations.AdjustWorkSpaceMovesWptr := by
  unfold Obligations.AdjustWorkSpaceMovesWptr
  intro n s
  exact ⟨_, exec_ajw n s, toNat_wordOffset s.wptr n, byteSelector_wordOffset s.wptr n, ⟨rfl, rfl, rfl⟩, rfl, rfl,
    by simp [SystemUnchanged], fun _ => rfl⟩

/-- Settles O20: `fcall` has no other path. -/
theorem functionCallIsRefused : Obligations.FunctionCallIsRefused := by
  unfold Obligations.FunctionCallIsRefused
  exact fun _ _ => rfl

/-- Settles O22: the comparison's boolean replaces Areg. -/
theorem equalsConstantGivesABoolean : Obligations.EqualsConstantGivesABoolean := by
  unfold Obligations.EqualsConstantGivesABoolean
  intro n s
  refine ⟨_, exec_eqc n s, fun h => ?_, fun h => ?_, rfl, rfl, setA_onlyStackChanged s _⟩
  · simp [boolWord, h]
  · simp [boolWord, h]

theorem exec_j_of_noTimeslice {s : State} (h : NoTimeslice s) (n : Word) : exec (.j n) s = .next (s.jumpBy n) :=
  if_neg (Bool.eq_false_iff.1 h)

theorem exec_j_of_timeslice {s : State} (h : statusBit s.status .timesliceEnable = true) (n : Word) :
    exec (.j n) s = .refused .timeslicing :=
  if_pos h

/-- Settles O23: timeslicing decides between the jump and the refusal. -/
theorem jumpAddsToIptr : Obligations.JumpAddsToIptr := by
  unfold Obligations.JumpAddsToIptr
  intro n s
  exact ⟨fun h => ⟨_, exec_j_of_noTimeslice h n, toNat_jumpBy_iptr s n, ⟨rfl, rfl, rfl⟩, rfl, rfl,
    jumpBy_systemUnchanged s n, jumpBy_memoryUnchanged s n⟩,
    fun h => exec_j_of_timeslice (Bool.eq_true_of_not_eq_false h) n⟩

theorem exec_ldc (n : Word) (s : State) : exec (.ldc n) s = .next (s.push n) := rfl
theorem exec_ldlp (n : Word) (s : State) : exec (.ldlp n) s = .next (s.push (wordOffset s.wptr n)) := rfl
theorem exec_ldprodid (s : State) : exec .ldprodid s = .next (s.push Config.productId) := rfl

/-- Settles O24: each of the three is a push. -/
theorem loadConstantAndPointersPush : Obligations.LoadConstantAndPointersPush := by
  unfold Obligations.LoadConstantAndPointersPush
  intro n s
  exact ⟨⟨_, exec_ldc n s, push_stackIs s _, push_onlyStackChanged s _⟩,
    ⟨_, exec_ldlp n s, push_stackIs s _, push_onlyStackChanged s _⟩,
    ⟨_, exec_ldprodid s, push_stackIs s _, push_onlyStackChanged s _⟩⟩

/-- Settles O33: a pop that leaves Areg in Creg and a push of Creg undo each other, and so does exchanging twice. -/
theorem stackManipulationsCompose : Obligations.StackManipulationsCompose := by
  unfold Obligations.StackManipulationsCompose
  intro s t
  refine ⟨fun h => ?rot, fun h => ?arot, fun h => ?rev⟩
  case rot =>
    rw [exec_rot] at h
    cases h
    exact exec_arot (s.popLeaving s.areg)
  case arot =>
    rw [exec_arot] at h
    cases h
    exact exec_rot (s.push s.creg)
  case rev =>
    rw [exec_rev] at h
    cases h
    exact exec_rev (s.setStack s.breg s.areg s.creg)

end Sys2Proof.Machine
end

section
/-! PROOFS. The secondary instructions that compute: checked and long arithmetic, byte order, and the ones whose values are
free (spec/43_secondary_named.md R110 to R121). -/

namespace Sys2Proof.Machine

/-! ## Reduction into the word range (R8) -/

theorem toInt_reduce (x : Int) : (reduce x).toInt = x.bmod 4294967296 := BitVec.toInt_ofInt x

theorem toInt_reduce_of_inRange {x : Int} (hl : -2147483648 ≤ x) (hu : x ≤ 2147483647) : (reduce x).toInt = x := by
  rw [toInt_reduce, Int.bmod_def]
  omega

theorem toInt_reduce_of_above {x : Int} (hl : 2147483647 < x) (hu : x ≤ 4294967294) :
    (reduce x).toInt = x - 4294967296 := by
  rw [toInt_reduce, Int.bmod_def]
  omega

theorem toInt_reduce_of_below {x : Int} (hl : -4294967296 ≤ x) (hu : x < -2147483648) :
    (reduce x).toInt = x + 4294967296 := by
  rw [toInt_reduce, Int.bmod_def]
  omega

/-- A reduced value differs from the exact one by a multiple of 2^32. -/
theorem dvd_toInt_reduce_sub (x : Int) : (4294967296 : Int) ∣ (reduce x).toInt - x := by
  rw [toInt_reduce, Int.bmod_def]
  omega

/-- A signed word is between MostNeg and MostPos (R3). -/
theorem toInt_bounds (v : Word) : -2147483648 ≤ v.toInt ∧ v.toInt ≤ 2147483647 := by
  have hl := BitVec.le_toInt v
  have hu := BitVec.toInt_lt (x := v)
  omega

theorem exactSum_bounds (a b : Word) : -4294967296 ≤ exactSum a b ∧ exactSum a b ≤ 4294967294 := by
  have ha := toInt_bounds a
  have hb := toInt_bounds b
  rw [exactSum]
  omega

/-! ## The flags of a checked operation (R20, R110, R124) -/

theorem toInt_mostPos : mostPos.toInt = 2147483647 := rfl
theorem toInt_mostNeg : mostNeg.toInt = -2147483648 := rfl

theorem overflow_set {st : Word} {x : Int} (h : 2147483647 < x) (o u : Bool) :
    statusBit (checkedStatus st x o u) .overflow = true := by
  rw [statusBit_checkedStatus_overflow, toInt_mostPos, if_pos h]

theorem underflow_set {st : Word} {x : Int} (h : x < -2147483648) (o u : Bool) :
    statusBit (checkedStatus st x o u) .underflow = true := by
  rw [statusBit_checkedStatus_underflow, toInt_mostNeg, if_pos h]

/-- A disputed write clears the flag or leaves it (D24). -/
theorem clearedOrKept_cases (free old : Bool) : clearedOrKept free old = false ∨ clearedOrKept free old = old := by
  cases free
  · exact .inl rfl
  · exact .inr rfl

theorem overflow_clearedOrKept {st : Word} {x : Int} (h : x ≤ 2147483647) (o u : Bool) :
    statusBit (checkedStatus st x o u) .overflow = false ∨
      statusBit (checkedStatus st x o u) .overflow = statusBit st .overflow := by
  rw [statusBit_checkedStatus_overflow, toInt_mostPos, if_neg (Int.not_lt.2 h)]
  exact clearedOrKept_cases o _

theorem underflow_clearedOrKept {st : Word} {x : Int} (h : -2147483648 ≤ x) (o u : Bool) :
    statusBit (checkedStatus st x o u) .underflow = false ∨
      statusBit (checkedStatus st x o u) .underflow = statusBit st .underflow := by
  rw [statusBit_checkedStatus_underflow, toInt_mostNeg, if_neg (Int.not_lt.2 h)]
  exact clearedOrKept_cases u _

/-! ## Checked arithmetic -/

theorem exec_add (s : State) :
    exec .add s = .next (((s.setStack (reduce (exactSum s.areg s.breg)) s.creg s.areg).setStatus
      (checkedStatus s.status (exactSum s.areg s.breg) (s.freeBit 0) (s.freeBit 1))).spend 2) := rfl

theorem exec_mul (s : State) :
    exec .mul s = .next (((s.setStack (reduce (exactProduct s.areg s.breg)) (s.freeWord 0) (s.freeWord 1)).setStatus
      (checkedStatus s.status (exactProduct s.areg s.breg) (s.freeBit 0) (s.freeBit 1))).spend 2) := rfl

/-- Settles O34: the exact sum of two words is within one multiple of 2^32 of the word range. -/
theorem addGivesTheCheckedSum : Obligations.AddGivesTheCheckedSum := by
  unfold Obligations.AddGivesTheCheckedSum
  intro s
  refine ⟨_, exec_add s, ?_⟩
  rintro _ rfl
  obtain ⟨hlow, hhigh⟩ := exactSum_bounds s.areg s.breg
  exact ⟨fun h => ⟨toInt_reduce_of_above h hhigh, overflow_set h _ _⟩,
    fun h => ⟨toInt_reduce_of_below hlow h, underflow_set h _ _⟩,
    fun h => toInt_reduce_of_inRange h.1 h.2, fun h => overflow_clearedOrKept h _ _,
    fun h => underflow_clearedOrKept h _ _, rfl, rfl, arithmetic_frame (checkedStatus_unchangedBut s _ _ _) _ _ _ _,
    rfl⟩

/-- Settles O36: the product is reduced by multiples of 2^32, and its flags are those of the exact product. -/
theorem multiplyGivesTheCheckedProduct : Obligations.MultiplyGivesTheCheckedProduct := by
  unfold Obligations.MultiplyGivesTheCheckedProduct
  intro s
  refine ⟨_, exec_mul s, ?_⟩
  rintro _ rfl
  exact ⟨dvd_toInt_reduce_sub _, fun h => overflow_set h _ _, fun h => underflow_set h _ _,
    fun h => toInt_reduce_of_inRange h.1 h.2, fun h => overflow_clearedOrKept h _ _,
    fun h => underflow_clearedOrKept h _ _, rfl, rfl, arithmetic_frame (checkedStatus_unchangedBut s _ _ _) _ _ _ _,
    rfl⟩

/-! ## Long arithmetic -/

theorem toNat_boolWord (b : Bool) : (boolWord b).toNat = b.toNat := by cases b <;> rfl

/-- The sum and the carry out together are the exact sum (R113). -/
theorem toNat_add_carryOut (a b c : Word) (hc : c.toNat ≤ 1) :
    a.toNat + b.toNat + c.toNat = (a + b + c).toNat + 4294967296 * (carryOut a b c).toNat := by
  have ha := a.isLt
  have hb := b.isLt
  rw [BitVec.toNat_add, BitVec.toNat_add, carryOut]
  by_cases h : 4294967296 ≤ a.toNat + b.toNat + c.toNat
  · rw [decide_eq_true h, Bool.toNat_true]
    omega
  · rw [decide_eq_false h, Bool.toNat_false]
    omega

theorem exec_addc (s : State) :
    exec .addc s = .next (((s.setStack (s.areg + s.breg + carryIn s.status) (s.freeWord 0) (s.freeWord 1)).setStatus
      (setStatusBit (undefinedFlags s.status (s.freeBit 0) (s.freeBit 1)) .carry
        (carryOut s.areg s.breg (carryIn s.status)))).spend 2) := rfl

theorem exec_subc (s : State) :
    exec .subc s = .next (((s.setStack (s.freeWord 0) (s.freeWord 1) (s.freeWord 2)).setStatus
      (setStatusBit (undefinedFlags s.status (s.freeBit 0) (s.freeBit 1)) .carry (s.freeBit 2))).spend 3) := rfl

/-- Settles O37: the carry written is the carry out of the sum left in Areg. -/
theorem addWithCarryChainsTheCarry : Obligations.AddWithCarryChainsTheCarry := by
  unfold Obligations.AddWithCarryChainsTheCarry
  intro s
  have hin : (carryIn s.status).toNat = (statusBit s.status .carry).toNat := toNat_boolWord _
  refine ⟨_, exec_addc s, ?_, rfl, rfl, arithmetic_frame (carry_undefinedFlags_unchangedBut s _ _ _) _ _ _ _, rfl⟩
  simp only [State.spend_status, State.setStatus_status, statusBit_setStatusBit_self, State.spend_areg,
    State.setStatus_areg, State.setStack_areg]
  rw [← hin, toNat_add_carryOut _ _ _ (hin ▸ Bool.toNat_le _)]

/-- Settles O38: the stack and the carry are the free values given for them. -/
theorem subtractWithCarryWritesItsFreeValues : Obligations.SubtractWithCarryWritesItsFreeValues := by
  unfold Obligations.SubtractWithCarryWritesItsFreeValues
  intro s
  exact ⟨_, exec_subc s, ⟨rfl, rfl, rfl⟩, statusBit_setStatusBit_self _ _ _,
    arithmetic_frame (carry_undefinedFlags_unchangedBut s _ _ _) _ _ _ _, rfl⟩

/-! ## Byte order -/

theorem byteOf_swapBytes (v : Word) {k : Nat} (hk : k < 4) : byteOf (swapBytes v) k = byteOf v (3 - k) := by
  have h0 := (byteOf v 0).isLt
  have h1 := (byteOf v 1).isLt
  have h2 := (byteOf v 2).isLt
  have h3 := (byteOf v 3).isLt
  apply BitVec.eq_of_toNat_eq
  rw [toNat_byteOf, toNat_swapBytes]
  interval_cases k <;> norm_num <;> omega

theorem swapBytes_swapBytes (v : Word) : swapBytes (swapBytes v) = v :=
  eq_of_byteOf_eq fun k hk => by
    rw [byteOf_swapBytes _ hk, byteOf_swapBytes _ (by omega), Nat.sub_sub_self (by omega)]

theorem exec_swap32 (s : State) : exec .swap32 s = .next (s.setA (swapBytes s.areg)) := rfl

/-- Settles O39: reversing the bytes is its own inverse. -/
theorem swap32ReversesTheBytes : Obligations.Swap32ReversesTheBytes := by
  unfold Obligations.Swap32ReversesTheBytes
  intro s
  refine ⟨_, exec_swap32 s, fun k hk => byteOf_swapBytes s.areg hk, rfl, rfl, setA_onlyStackChanged s _, ?_⟩
  rw [exec_swap32, State.setA_areg, swapBytes_swapBytes]
  rfl

/-! ## The instructions whose values are free -/

theorem exec_gajw (s : State) :
    exec .gajw s = .next (((s.setStack (s.freeWord 0) (s.freeWord 1) (s.freeWord 2)).setWptr
      (s.freeWord 3)).spend 4) := rfl

theorem exec_io (s : State) :
    exec .io s = .next (((s.setStack (s.freeWord 0) (s.freeWord 1) (s.freeWord 2)).setIoreg
      (inputData (s.freeWord 3)) (outputData (s.freeWord 4))).spend 5) := rfl

/-- Settles O40: Wptr and the stack are the free words given for them. -/
theorem generalAdjustWritesWptr : Obligations.GeneralAdjustWritesWptr := by
  unfold Obligations.GeneralAdjustWritesWptr
  intro s
  exact ⟨_, exec_gajw s, rfl, ⟨rfl, rfl, rfl⟩, rfl, rfl, by simp [SystemUnchanged], fun _ => rfl, rfl⟩

/-- Settles O41: each half of IOreg is the half of the free word given for it. -/
theorem inputOutputWritesIOreg : Obligations.InputOutputWritesIOreg := by
  unfold Obligations.InputOutputWritesIOreg
  intro s
  exact ⟨_, exec_io s, inputData_ioWord _ _, outputData_ioWord _ _, ⟨rfl, rfl, rfl⟩,
    ⟨rfl, rfl, rfl, by simp [SystemUnchanged], fun _ => rfl⟩, rfl⟩

/-- Settles O43: neither has another path. -/
theorem multiplyAccumulateIsRefused : Obligations.MultiplyAccumulateIsRefused := by
  unfold Obligations.MultiplyAccumulateIsRefused
  exact fun _ => ⟨rfl, rfl⟩

end Sys2Proof.Machine
end

section
/-! PROOFS. When an instruction completes (spec/60_exceptions.md section 2): the unconditional ones always, the others by the
address, the prefixes taken, timeslicing and the launch's tables, and never by the mode bits. -/

namespace Sys2Proof.Machine

theorem completes_of_unconditional {i : Instr} (h : i.unconditional = true) (s : State) : Completes i s := by
  cases i with
  | adc n | ajw n | eqc n | ldc n | ldlp n | ldnlp n | add | and | rot | arot | dup | rev | mul | addc | subc | swap32
  | gajw | io | ldprodid | eret => exact ⟨_, rfl⟩
  | cj n =>
    by_cases hzero : s.areg = 0#32
    · exact ⟨_, exec_cj_of_zero hzero n⟩
    · exact ⟨_, exec_cj_of_ne_zero hzero n⟩
  | pfix d | nfix d => cases h
  | opr n | fcall n | j n | ldl n | ldnl n | stl n | stnl n | mac | umac => cases h

/-- Of the secondary instructions all complete but `mac` and `umac`. -/
theorem unconditional_of_secondary {k : Instr} {s : State} (hsec : k.isSecondary = true) (h : Completes k s) :
    k.unconditional = true := by
  obtain ⟨t, h⟩ := h
  cases k with
  | mac | umac => cases h
  | add | and | rot | arot | dup | rev | mul | addc | subc | swap32 | gajw | io | ldprodid | eret => rfl
  | pfix d | nfix d => cases hsec
  | opr n | adc n | ajw n | fcall n | cj n | eqc n | j n | ldc n | ldl n | ldlp n | ldnl n | ldnlp n | stl n
  | stnl n => cases hsec

/-- Completing reads no bit of Status but that of timeslicing. -/
theorem completes_setStatus {i : Instr} {s : State} {st : Word}
    (hst : statusBit st .timesliceEnable = statusBit s.status .timesliceEnable) (h : Completes i s) :
    Completes i (s.setStatus st) := by
  by_cases hu : i.unconditional = true
  · exact completes_of_unconditional hu _
  obtain ⟨t, h⟩ := h
  cases i with
  | pfix d | nfix d =>
    obtain ⟨hp, -⟩ := extendIdv_next h
    exact ⟨_, extendIdv_of_lt (s := s.setStatus st) hp _⟩
  | opr n =>
    obtain ⟨k, hrow, hsec, hruns, hk⟩ := execOpr_next h
    obtain ⟨t', ht'⟩ := completes_of_unconditional (unconditional_of_secondary hsec ⟨t, hk⟩) (s.setStatus st)
    exact ⟨t', (exec_opr_of_runs (s := s.setStatus st) hrow hsec hruns).trans ht'⟩
  | fcall n | mac | umac => cases h
  | j n =>
    have hoff : NoTimeslice s := by
      by_contra hon
      rw [exec_j_of_timeslice (Bool.eq_true_of_not_eq_false hon)] at h
      cases h
    exact ⟨_, exec_j_of_noTimeslice (s := s.setStatus st) (hst.trans hoff) n⟩
  | ldl n | ldnl n =>
    obtain ⟨hadmitted, -⟩ := withWord_next h
    exact ⟨_, withWord_of_admitted (s := s.setStatus st) hadmitted _⟩
  | stl n =>
    obtain ⟨_, hstore, -⟩ := andThen_next h
    obtain ⟨hadmitted, htext, -⟩ := store_next hstore
    exact ⟨_, exec_stl_of_admitted (s := s.setStatus st) hadmitted htext⟩
  | stnl n =>
    obtain ⟨_, hstore, -⟩ := andThen_next h
    obtain ⟨hadmitted, htext, -⟩ := store_next hstore
    exact ⟨_, exec_stnl_of_admitted (s := s.setStatus st) hadmitted htext⟩
  | _ => exact absurd rfl hu

/-- Settles O47: the mode bits are not the bit of timeslicing, and putting the old Status back undoes the setting. -/
theorem completingIsIndependentOfTheMode : Obligations.CompletingIsIndependentOfTheMode := by
  unfold Obligations.CompletingIsIndependentOfTheMode
  intro i s user interrupt trap
  have hst : statusBit (setStatusBit (setStatusBit (setStatusBit s.status .userMode user) .interruptMode interrupt)
      .trapMode trap) .timesliceEnable = statusBit s.status .timesliceEnable := by
    simp [statusBit_setStatusBit]
  refine ⟨fun h => completes_of_unconditional h s, completes_setStatus hst, fun h => ?_⟩
  have hback := completes_setStatus (st := s.status) (by exact hst.symm) h
  exact hback

end Sys2Proof.Machine
end
